-- ==== Sys2Proof/Word.lean ====
section
/-!
DEFINITION. The word types of the codec core: 32-bit window words (R27) and 8-bit memory bytes (R41).
-/

namespace Sys2Proof

/-- A 32-bit word: a window register, or a command word (R27, R61). -/
abbrev Word := BitVec 32

/-- One byte of the byte memory (R41). -/
abbrev Byte := BitVec 8

/-- A 16-bit sample pattern; its value is its two's complement integer (R9, R18). -/
abbrev Sample := BitVec 16

/-- A 4-bit ADPCM code: bit 3 the sign, bits 2..0 the magnitude (R14). -/
abbrev Code := BitVec 4

end Sys2Proof
end

