-- ==== Sys2Proof/Syntax.lean ====
section
/-!
DEFINITION. The commands of the codec core, one constructor per row of spec/opcode_table.json (R63, R71).
-/

namespace Sys2Proof

/-- A command of the block (R71). The operand types carry the ranges R71 gives: a sample is a 16-bit
pattern read as -32768..32767, a code is 0..15, a header flag is 0 or 1. The other operands of ENC and
DEC stand in the window registers (R69). -/
inductive Instr where
  /-- RESET (R79). -/
  | reset
  /-- ENCSTEP of the sample in DATA[15:0] (R65, R90). -/
  | encstep (sample : Sample)
  /-- DECSTEP of the code in DATA[3:0]; DATA[15:4] is no part of the command (R66, R91). -/
  | decstep (code : Code)
  /-- ENC (`header = false`) and ENC.H (`header = true`) (R67, R99). -/
  | enc (header : Bool)
  /-- DEC (`header = false`) and DEC.H (`header = true`) (R68, R105). -/
  | dec (header : Bool)
  deriving DecidableEq, Repr

end Sys2Proof
end

