-- ==== Sys2Proof/WellFormed.lean ====
section
/-!
DEFINITION. Which command words are legal, by the four conditions of R70, independently of the decoder
(R72); and the well-formedness of a command, whose operand ranges its types already carry (R71).
-/

namespace Sys2Proof

/-- R70 condition 1: OP is 0x0 or 0x6..0xF. -/
def illegalOp (w : Word) : Bool := w.toNat / 2 ^ 28 = 0 || 6 ≤ w.toNat / 2 ^ 28

/-- R70 condition 2: RSV, bits 26..16, is not 0. -/
def illegalRsv (w : Word) : Bool := w.toNat / 2 ^ 16 % 2 ^ 11 ≠ 0

/-- R70 condition 3: H, bit 27, is 1 and OP is 0x1, 0x2 or 0x3. -/
def illegalH (w : Word) : Bool :=
  w.toNat / 2 ^ 27 % 2 = 1 && (1 ≤ w.toNat / 2 ^ 28 && w.toNat / 2 ^ 28 ≤ 3)

/-- R70 condition 4: DATA, bits 15..0, is not 0 and OP is 0x1, 0x4 or 0x5. -/
def illegalData (w : Word) : Bool :=
  w.toNat % 2 ^ 16 ≠ 0 &&
    (w.toNat / 2 ^ 28 = 1 || w.toNat / 2 ^ 28 = 4 || w.toNat / 2 ^ 28 = 5)

/-- A command word is legal when none of R70's four conditions holds. -/
def legalWord (w : Word) : Bool :=
  !(illegalOp w) && !(illegalRsv w) && !(illegalH w) && !(illegalData w)

/-- The operands of a command lie in the ranges of R71. -/
def Instr.wellFormed : Instr → Bool
  | .reset => true
  | .encstep sample => -32768 ≤ sample.toInt && sample.toInt ≤ 32767
  | .decstep code => code.toNat ≤ 15
  | .enc _ => true
  | .dec _ => true

end Sys2Proof
end

