-- ==== Sys2Proof/Decode.lean ====
section
/-!
DEFINITION. The decoder of command words (R72), total on every word and naming why a word is illegal
(R70); after it the encoder (R64 to R68, R74).
-/

namespace Sys2Proof

/-- Why a command word is illegal: the conditions of R70, by name. The block reports the one fault code
ILLEGAL for all of them (R113); the name is the decoder's own. -/
inductive IllegalReason where
  /-- OP is 0x0 or 0x6..0xF. -/
  | op
  /-- RSV is not 0. -/
  | rsv
  /-- H = 1 on RESET, ENCSTEP or DECSTEP. -/
  | h
  /-- DATA ≠ 0 on RESET, ENC or DEC. -/
  | data
  deriving DecidableEq, Repr

/-- What a word decodes to: exactly one command, or ILLEGAL (R71). -/
inductive Decoded where
  | command (i : Instr)
  | illegal (why : IllegalReason)
  deriving DecidableEq, Repr

/-- OP, bits 31..28 of a command word (R62). -/
def fieldOp (w : Word) : BitVec 4 := w.extractLsb' 28 4

/-- H, bit 27 of a command word (R62). -/
def fieldH (w : Word) : Bool := w.getLsbD 27

/-- RSV, bits 26..16 of a command word (R62). -/
def fieldRsv (w : Word) : BitVec 11 := w.extractLsb' 16 11

/-- DATA, bits 15..0 of a command word (R62). -/
def fieldData (w : Word) : BitVec 16 := w.extractLsb' 0 16

/-- The code of a DECSTEP word, bits 3..0; bits 15..4 are ignored (R66). -/
def fieldCode (w : Word) : Code := w.extractLsb' 0 4

/-- The decoder (R72). -/
def decode (w : Word) : Decoded :=
  if fieldRsv w ≠ 0 then .illegal .rsv
  else if fieldOp w = 1 then
    if fieldH w then .illegal .h
    else if fieldData w = 0 then .command .reset else .illegal .data
  else if fieldOp w = 2 then
    if fieldH w then .illegal .h else .command (.encstep (fieldData w))
  else if fieldOp w = 3 then
    if fieldH w then .illegal .h else .command (.decstep (fieldCode w))
  else if fieldOp w = 4 then
    if fieldData w = 0 then .command (.enc (fieldH w)) else .illegal .data
  else if fieldOp w = 5 then
    if fieldData w = 0 then .command (.dec (fieldH w)) else .illegal .data
  else .illegal .op

/-- A CMD32 word from its fields, RSV = 0 (R62). -/
def packWord (op : BitVec 4) (h : Bool) (data : BitVec 16) : Word :=
  op ++ BitVec.ofBool h ++ 0#11 ++ data

/-- The encoder (R64 to R68); DECSTEP's DATA[15:4] is written as 0 (R74, R78). -/
def encode : Instr → Word
  | .reset => packWord 1 false 0
  | .encstep sample => packWord 2 false sample
  | .decstep code => packWord 3 false (code.setWidth 16)
  | .enc header => packWord 4 header 0
  | .dec header => packWord 5 header 0

/-- The command word whose bits are `w`, bits numbered as spec/opcode_table.json numbers them; the bits
of the word above `nbits` are 0. -/
def tableWord (nbits w : Nat) : Word := BitVec.ofNat 32 (w % 2 ^ nbits)

/-- The command the decoder reads from an `nbits`-bit table row whose bits are `w`. Every command is one
32-bit word (R73), so a row of more than 32 bits is none of them. -/
def decodeTableWord (nbits w : Nat) : Option Instr :=
  if nbits ≤ 32 then
    match decode (tableWord nbits w) with
    | .command i => some i
    | .illegal _ => none
  else none

end Sys2Proof
end

