-- ==== Sys2Proof/Config.lean ====
section
/-!
DEFINITION. What is fixed for one block: the parameters of R6 (tables, REG_BASE, admitted bytes), the
size of the byte address space, and the one free value.
-/

namespace Sys2Proof

/-- The size of the byte address space, 2^32 (R41; `AW` = 32 of R6). -/
def Config.addressSpace : Nat := 2 ^ 32

/-- What a byte of memory that nothing has listed reads as: 0x00. DESIGN CHOICE (log 4), unsafe: the spec
leaves the initial memory to the run (R60, U9); 95_test_vectors.md lets unlisted memory hold 0. -/
def Config.blankByte : Byte := 0

/-- The free value: STEP_SIZE read at an index past its last entry. The spec gives no such entry and says
no state reached stores such an index (R12, R17, R88). DESIGN CHOICE (log 6), safe: it has no body, so no
proof can use its value. -/
opaque Config.stepSizePast : Nat → BitVec 16

/-- A stretch of byte addresses, `base` to `base + size - 1`. -/
structure Region where
  base : Nat
  size : Nat
  deriving DecidableEq, Repr

/-- The two constant tables (R20, R21): 89 unsigned 16-bit entries and 8 signed entries. -/
structure Tables where
  stepSize : Vector (BitVec 16) 89
  stepAdjust : Vector Int 8
  deriving DecidableEq, Repr

/-- The parameters of one block and its platform (R6, R39). `readable` and `writable` are `MemReadable`
and `MemWritable` as plain data: the predicate holds of an address that lies in one of the regions.
Every predicate on the 2^32 addresses is such a list. `regBase` is any number: its width and alignment
are the model's choice (DESIGN CHOICE, log 19). No step changes a parameter (R22, R39). -/
structure Params where
  tables : Tables
  regBase : Nat
  readable : List Region
  writable : List Region
  deriving DecidableEq, Repr

end Sys2Proof
end

