-- ==== Sys2Proof/Machine/Tables.lean ====
section
/-!
DEFINITION. The default values of STEP_SIZE (R20) and STEP_ADJUST (R21), and the admission predicate of a
list of regions (R42). PRESUMED (log 5), unsafe: the spec itself takes every entry but the first of each
table from general knowledge (G1, G2).
-/

namespace Sys2Proof.Machine

/-- STEP_SIZE[0..9] (R20). -/
def stepSizeRow0 : List (BitVec 16) := [7, 8, 9, 10, 11, 12, 13, 14, 16, 17]
/-- STEP_SIZE[10..19] (R20). -/
def stepSizeRow1 : List (BitVec 16) := [19, 21, 23, 25, 28, 31, 34, 37, 41, 45]
/-- STEP_SIZE[20..29] (R20). -/
def stepSizeRow2 : List (BitVec 16) := [50, 55, 60, 66, 73, 80, 88, 97, 107, 118]
/-- STEP_SIZE[30..39] (R20). -/
def stepSizeRow3 : List (BitVec 16) := [130, 143, 157, 173, 190, 209, 230, 253, 279, 307]
/-- STEP_SIZE[40..49] (R20). -/
def stepSizeRow4 : List (BitVec 16) := [337, 371, 408, 449, 494, 544, 598, 658, 724, 796]
/-- STEP_SIZE[50..59] (R20). -/
def stepSizeRow5 : List (BitVec 16) := [876, 963, 1060, 1166, 1282, 1411, 1552, 1707, 1878, 2066]
/-- STEP_SIZE[60..69] (R20). -/
def stepSizeRow6 : List (BitVec 16) := [2272, 2499, 2749, 3024, 3327, 3660, 4026, 4428, 4871, 5358]
/-- STEP_SIZE[70..79] (R20). -/
def stepSizeRow7 : List (BitVec 16) :=
  [5894, 6484, 7132, 7845, 8630, 9493, 10442, 11487, 12635, 13899]
/-- STEP_SIZE[80..88] (R20). -/
def stepSizeRow8 : List (BitVec 16) :=
  [15289, 16818, 18500, 20350, 22385, 24623, 27086, 29794, 32767]

/-- The entries of the default STEP_SIZE in index order (R20). -/
def stepSizeEntries : List (BitVec 16) :=
  stepSizeRow0 ++ stepSizeRow1 ++ stepSizeRow2 ++ stepSizeRow3 ++ stepSizeRow4 ++ stepSizeRow5 ++
    stepSizeRow6 ++ stepSizeRow7 ++ stepSizeRow8

/-- The default STEP_SIZE (R20, D24). -/
def stepSizeTable : Vector (BitVec 16) 89 := ⟨stepSizeEntries.toArray, by decide⟩

/-- The default STEP_ADJUST (R21, D25). -/
def stepAdjustTable : Vector Int 8 := #v[-1, -1, -1, -1, 2, 4, 6, 8]

/-- The default tables (R6). -/
def defaultTables : Tables where
  stepSize := stepSizeTable
  stepAdjust := stepAdjustTable

/-- The whole byte address space as one region. -/
def wholeSpace : List Region := [{ base := 0, size := Config.addressSpace }]

/-- The parameters a block has at `State.reset`: the default tables (log 5), REG_BASE = 0 and every byte
admitted. DESIGN CHOICE (log 3), unsafe: the spec leaves the last three OPEN (R6). -/
def defaultParams : Params where
  tables := defaultTables
  regBase := 0
  readable := wholeSpace
  writable := wholeSpace

/-- The predicate that a list of regions stands for (R42). -/
def admitted (regions : List Region) (a : Nat) : Bool :=
  regions.any fun r => r.base ≤ a && a < r.base + r.size

end Sys2Proof.Machine
end

