-- ==== Sys2Proof/Machine/State.lean ====
section
/-!
DEFINITION. The state of the machine as plain data: the block's registers (R15, R39), its parameters
(R6), the host's byte memory (R41), and the host actions still to come with what its reads returned
(R58, R59); the reasons a step can stop; and the state after reset (R131).
-/

namespace Sys2Proof.Machine

/-- The byte memory (R41): address and byte pairs in one canonical form (`Memory.wf`). An address that is
not listed reads as `Config.blankByte`. -/
abbrev Memory := List Host.Cell

/-- The canonical form: addresses strictly rising and inside the address space, and no entry equal to what
an unlisted address reads as. Equal memories are then equal lists. -/
abbrev Memory.wf (m : Memory) : Prop :=
  m.Pairwise (fun x y => x.1 < y.1) ∧
    ∀ c ∈ m, c.1 < Config.addressSpace ∧ c.2 ≠ Config.blankByte

/-- The Codec State (R14, R15): STEP_IDX (R17) and LAST_SAMPLE (R18). -/
structure Codec where
  stepIdx : BitVec 7
  lastSample : Sample
  deriving DecidableEq, Repr

/-- What STATUS records (R35, R113): no fault, or the code of the first command that faulted. -/
inductive FaultCode where
  /-- FCODE 0: no fault. -/
  | clear
  /-- FCODE 1: the command word is illegal (R70). -/
  | illegal
  /-- FCODE 2: the bytes the command would write exceed DSTCAP (R114). -/
  | size
  /-- FCODE 3: a byte is not admitted, or a range wraps (R115). -/
  | bus
  /-- FCODE 4: source and destination share a byte (R117). -/
  | overlap
  /-- FCODE 5: the header's byte 2 is above 88 (R116). -/
  | hdrstep
  deriving DecidableEq, Repr

/-- The eight registers of the window (R27). -/
inductive WReg where
  | cmd
  | src
  | dst
  | len
  | dstcap
  | result
  | state
  | status
  deriving DecidableEq, Repr

/-- The width of a window access: the block is accessed by words only (R36). -/
inductive AccessSize where
  | byte
  | half
  | word
  deriving DecidableEq, Repr

/-- What the host can do (R58). Window addresses are platform addresses, REG_BASE + offset (R27; log 19);
byte-memory addresses are 32-bit (R41). -/
inductive HostAction where
  /-- A window write of `value` at platform address `addr`. -/
  | windowWrite (addr : Nat) (size : AccessSize) (value : Word)
  /-- A window read at platform address `addr`. -/
  | windowRead (addr : Nat) (size : AccessSize)
  /-- A byte-memory write between commands. -/
  | memWrite (addr : Word) (value : Byte)
  /-- A byte-memory read between commands. -/
  | memRead (addr : Word)
  /-- Hardware reset (R131). -/
  | hardReset
  deriving DecidableEq, Repr

/-- The state of the block, its parameters, and the host's side of a run. -/
structure State where
  /-- The Codec State: STEP_IDX and LAST_SAMPLE (R15, R17, R18). -/
  codec : Codec
  /-- SRC (R29). -/
  src : Word
  /-- DST (R30). -/
  dst : Word
  /-- LEN (R31). -/
  len : Word
  /-- DSTCAP (R32). -/
  dstcap : Word
  /-- RESULT (R33). -/
  result : Word
  /-- The fault code that STATUS shows (R35, R39). -/
  fault : FaultCode
  /-- The byte memory, owned by the host (R41). -/
  mem : Memory
  /-- The parameters of R6: constant, kept here because a step takes no other argument (log 3). -/
  params : Params
  /-- The model's own: the host actions not yet performed, the next one first (R58, R59; log 1). -/
  pending : List HostAction
  /-- The model's own: what the host's window reads returned, oldest first (R59; log 10). -/
  windowReads : List Word
  /-- The model's own: what the host's byte-memory reads returned, oldest first (log 10). -/
  memReads : List Byte
  deriving DecidableEq, Repr

/-- A stop of the machine with a fault. There is none: a fault of the spec is a code in STATUS and the
machine goes on to a next state (R118), and no rule of the spec stops the machine (R142; log 12). -/
inductive Fault where
  deriving DecidableEq, Repr

/-- A step with no meaning in the model. -/
inductive Refusal where
  /-- Raised by an arm of `exec` whose instruction has no meaning yet. Safe: nothing is claimed of it. -/
  | notModelled (mnemonic : String)
  /-- Raised by a window access that is not an aligned word access to one of the eight registers: "outside
  the model: the host must not make them" (R36, R58, U11; log 8). Safe: nothing is claimed after it. -/
  | windowAccess
  deriving DecidableEq, Repr

/-- The block's Codec State after reset: (0, 0) (R24). -/
def Codec.reset : Codec where
  stepIdx := 0
  lastSample := 0

/-- The machine right after hardware reset (R131), with no byte of memory listed (log 4), the default
parameters (log 3, log 5) and no host action to come (log 2). -/
def State.reset : State where
  codec := Codec.reset
  src := 0
  dst := 0
  len := 0
  dstcap := 0
  result := 0
  fault := .clear
  mem := []
  params := defaultParams
  pending := []
  windowReads := []
  memReads := []

end Sys2Proof.Machine
end

