-- ==== Sys2Proof/Machine/Flags.lean ====
section
/-!
DEFINITION. The one status flag, STATUS.FAULT, and the STATUS and STATE words (R25, R34, R35). The block
has no condition codes.
-/

namespace Sys2Proof.Machine

/-- The number of a fault code, FCODE (R113). -/
def faultNumber : FaultCode → Nat
  | .clear => 0
  | .illegal => 1
  | .size => 2
  | .bus => 3
  | .overlap => 4
  | .hdrstep => 5

/-- STATUS.FAULT: 1 exactly when a fault is recorded (R35). -/
def faultFlag : FaultCode → Bool
  | .clear => false
  | .illegal => true
  | .size => true
  | .bus => true
  | .overlap => true
  | .hdrstep => true

/-- The STATUS word: FCODE in bits 7..4, FAULT in bit 0, every other bit 0 (R35, R118). -/
def statusWord (f : FaultCode) : Word :=
  (BitVec.ofNat 32 (faultNumber f) <<< 4) ||| BitVec.ofNat 32 (faultFlag f).toNat

/-- The STATE word, a live view of the Codec State: nine zero bits, STEP_IDX, LAST_SAMPLE (R34). -/
def stateView (c : Codec) : Word := 0#9 ++ c.stepIdx ++ c.lastSample

/-- The block is halted when STATUS.FAULT = 1 (R38). -/
def halted (s : State) : Bool := faultFlag s.fault

end Sys2Proof.Machine
end

