-- ==== Sys2Proof/Machine/Operands.lean ====
section
/-!
DEFINITION. Operands and their forms: integer conversions and clamp (R9, R10), the register operands of
the buffer commands (R69), little-endian samples (R44), nibbles (R97, R106), the stream header (R101), and
the window's register addresses (R27).
-/

namespace Sys2Proof.Machine

/-- `clamp(v, lo, hi)` on integers (R10). -/
def clamp (v lo hi : Int) : Int := if v < lo then lo else if hi < v then hi else v

/-- `int16(b)`: the two's complement integer of a 16-bit pattern (R9). -/
def int16 (b : Sample) : Int := b.toInt

/-- `bits_16(v)`: the 16-bit two's complement pattern of `v` (R9). -/
def bits16 (v : Int) : Sample := BitVec.ofInt 16 v

/-- `bits_32(v)`: the 32-bit two's complement pattern of `v` (R9). -/
def bits32 (v : Int) : Word := BitVec.ofInt 32 v

/-- The magnitude bits of a code, `code & 7` (R14, R86). -/
def codeMagnitude (code : Code) : BitVec 3 := code.extractLsb' 0 3

/-- The sign bit of a code, `code & 8` (R14, R86). -/
def codeSign (code : Code) : Bool := code.getLsbD 3

/-- The operands ENC and DEC read from the window when they start (R69). -/
structure BufferArgs where
  src : Nat
  dst : Nat
  len : Nat
  cap : Nat
  deriving DecidableEq, Repr

/-- The operand read of R69: every register zero-extended, nothing scaled. -/
def bufferArgs (s : State) : BufferArgs where
  src := s.src.toNat
  dst := s.dst.toNat
  len := s.len.toNat
  cap := s.dstcap.toNat

/-- `4 * h`: the length in bytes of the header, 4 or none (R6, R98, R103). -/
def headerLen (header : Bool) : Nat := if header then 4 else 0

/-- The pairs ENC encodes, `len >> 1`; an odd last sample is dropped (R95). -/
def encPairs (a : BufferArgs) : Nat := a.len / 2

/-- The bytes ENC reads (R98). -/
def encIn (a : BufferArgs) : Nat := 4 * encPairs a

/-- The bytes ENC writes (R98). -/
def encOut (header : Bool) (a : BufferArgs) : Nat := headerLen header + encPairs a

/-- The bytes DEC reads (R103). -/
def decIn (header : Bool) (a : BufferArgs) : Nat := headerLen header + a.len

/-- The bytes DEC writes (R103). -/
def decOut (a : BufferArgs) : Nat := 4 * a.len

/-- The low byte of a sample, which lies at the lower address (R44). -/
def sampleLow (v : Sample) : Byte := v.extractLsb' 0 8

/-- The high byte of a sample (R44). -/
def sampleHigh (v : Sample) : Byte := v.extractLsb' 8 8

/-- A 16-bit pattern from its high and its low byte (R44, R104). -/
def sampleOf (high low : Byte) : Sample := high ++ low

/-- The payload byte of a pair: the first code in the high nibble (R97). -/
def packNibbles (c0 c1 : Code) : Byte := (c0.setWidth 8 <<< 4) ||| c1.setWidth 8

/-- Bits 7..4 of a payload byte, decoded first (R106). -/
def highNibble (b : Byte) : Code := b.extractLsb' 4 4

/-- Bits 3..0 of a payload byte, decoded second (R106). -/
def lowNibble (b : Byte) : Code := b.extractLsb' 0 4

/-- The bytes of the stream header of a Codec State: last_sample big-endian, step_idx, 0 (R101, R102). -/
def headerBytes (c : Codec) : List Byte :=
  [sampleHigh c.lastSample, sampleLow c.lastSample, c.stepIdx.setWidth 8, 0]

/-- The Codec State that header bytes 0, 1 and 2 give; byte 3 is ignored (R102, R104). -/
def codecOfHeader (b0 b1 b2 : Byte) : Codec where
  stepIdx := b2.extractLsb' 0 7
  lastSample := sampleOf b0 b1

/-- The byte offset of a window register from REG_BASE (R27). -/
def windowOffset : WReg → Nat
  | .cmd => 0x00
  | .src => 0x04
  | .dst => 0x08
  | .len => 0x0C
  | .dstcap => 0x10
  | .result => 0x14
  | .state => 0x18
  | .status => 0x1C

/-- The eight registers in the order of the window (R27). -/
def windowRegs : List WReg := [.cmd, .src, .dst, .len, .dstcap, .result, .state, .status]

/-- The register that an access of this size at platform address `addr` reaches: a word access at REG_BASE
plus one of the eight offsets, and nothing else (R27, R36). DESIGN CHOICE (log 19), unsafe: REG_BASE is
OPEN (R6, R50), here any number, and a platform address has no width, so an access counts as naturally
aligned by its offset alone, also where REG_BASE is no multiple of 4. -/
def windowRegAt (p : Params) (addr : Nat) : AccessSize → Option WReg
  | .byte => none
  | .half => none
  | .word => windowRegs.find? fun r => p.regBase + windowOffset r == addr

end Sys2Proof.Machine
end

