-- ==== Sys2Proof/Machine/Ops.lean ====
section
/-!
DEFINITION. The named operations over memory and registers: byte and sample accesses (R11, R44, R48), the
register updates, the range checks (R49, R115, R117), taking a fault (R118), the halt (R121), hardware
reset (R131), and reading and writing a window register (R27 to R37).
-/

namespace Sys2Proof.Machine

/-! ### The byte memory -/

/-- `MemRead(a, 1)`: the byte at `a` (R11); an unlisted address reads as `Config.blankByte`. -/
def memRead : Memory → Nat → Byte
  | [], _ => Config.blankByte
  | (k, v) :: rest, a => if k = a then v else memRead rest a

/-- The entry for `b` at `a` in front of `rest`: none where `b` is what an unlisted address reads as. -/
def memCons (a : Nat) (b : Byte) (rest : Memory) : Memory :=
  if b = Config.blankByte then rest else (a, b) :: rest

/-- `MemWrite(a, 1, b)`: stores one byte and changes no other (R11, R48), keeping the canonical form. -/
def memWrite : Memory → Nat → Byte → Memory
  | [], a, b => memCons a b []
  | (k, v) :: rest, a, b =>
    if a < k then memCons a b ((k, v) :: rest)
    else if a = k then memCons a b rest
    else (k, v) :: memWrite rest a b

/-- `MemWrite` of each byte of a list at ascending addresses from `a` (R53). -/
def memWriteList : Memory → Nat → List Byte → Memory
  | m, _, [] => m
  | m, a, b :: rest => memWriteList (memWrite m a b) (a + 1) rest

/-- `MemRead16(a)` as a pattern: little-endian (R44). -/
def memRead16 (m : Memory) (a : Nat) : Sample := sampleOf (memRead m (a + 1)) (memRead m a)

/-- `MemWrite16(a, v)` of a pattern: low byte at `a`, high byte at `a + 1` (R44). -/
def memWrite16 (m : Memory) (a : Nat) (v : Sample) : Memory :=
  memWrite (memWrite m a (sampleLow v)) (a + 1) (sampleHigh v)

/-! ### Register updates -/

/-- `x[STEP_IDX]` and `x[LAST_SAMPLE]` written. -/
def setCodec (s : State) (c : Codec) : State := { s with codec := c }

/-- `x[RESULT] <- w` (R33). -/
def setResult (s : State) (w : Word) : State := { s with result := w }

/-- The byte memory after a command's writes. -/
def setMem (s : State) (m : Memory) : State := { s with mem := m }

/-- Taking a fault (R118): STATUS records the code and nothing else changes. The block is then halted
(R38); the only way back is `hardReset`. -/
def raiseFault (s : State) (f : FaultCode) : State := { s with fault := f }

/-- Hardware reset (R131): every register at its reset value, STATUS cleared; the byte memory, the
parameters and the host's side of the run stay. The return from a fault (R121). -/
def hardReset (s : State) : State :=
  { s with
    codec := Codec.reset
    src := 0
    dst := 0
    len := 0
    dstcap := 0
    result := 0
    fault := .clear }

/-- A command's effect, unless the block is halted: then the command is discarded (R121). -/
def unlessHalted (s : State) (t : State) : Host.Outcome State Fault Refusal :=
  if halted s then .next s else .next t

/-! ### The checks of ENC and DEC -/

/-- `p` holds of the `n` addresses from `a` up. -/
def allFrom (p : Nat → Bool) : Nat → Nat → Bool
  | _, 0 => true
  | a, n + 1 => p a && allFrom p (a + 1) n

/-- A range passes the BUS check against a list of admitted regions: it is empty, or does not wrap and
every byte of it is admitted (R49, R115). -/
def rangeAdmitted (regions : List Region) (a n : Nat) : Bool :=
  n == 0 || (a + n ≤ Config.addressSpace && allFrom (admitted regions) a n)

/-- `RangeReadable(a, n)` (R115). -/
def rangeReadable (p : Params) (a n : Nat) : Bool := rangeAdmitted p.readable a n

/-- `RangeWritable(a, n)` (R115). -/
def rangeWritable (p : Params) (a n : Nat) : Bool := rangeAdmitted p.writable a n

/-- `Overlap(a, n, b, m)` (R117). -/
def overlap (a n b m : Nat) : Bool := 0 < n && 0 < m && a < b + m && b < a + n

/-- The checks ENC and DEC share, in the order of R119: SIZE, BUS, OVERLAP. The first that fails, or
`clear`. -/
def bufferFault (p : Params) (a : BufferArgs) (nin nout : Nat) : FaultCode :=
  if a.cap < nout then .size
  else if !(rangeReadable p a.src nin && rangeWritable p a.dst nout) then .bus
  else if overlap a.src nin a.dst nout then .overlap
  else .clear

/-- The check of R116: a header whose byte 2 is above 88 faults HDRSTEP. -/
def headerFault (m : Memory) (header : Bool) (src : Nat) : FaultCode :=
  if header && 88 < (memRead m (src + 2)).toNat then .hdrstep else .clear

/-! ### The window -/

/-- What a window read of a register returns (R28 to R35); reading has no side effect (R36). -/
def readWindow (s : State) : WReg → Word
  | .cmd => 0
  | .src => s.src
  | .dst => s.dst
  | .len => s.len
  | .dstcap => s.dstcap
  | .result => s.result
  | .state => stateView s.codec
  | .status => statusWord s.fault

/-- What a window write does to a register other than CMD: SRC, DST, LEN and DSTCAP take the word (R37);
RESULT, STATE and STATUS ignore it (R36). CMD holds no state (R28): its write runs a command. -/
def writeWindow (s : State) (w : Word) : WReg → State
  | .cmd => s
  | .src => { s with src := w }
  | .dst => { s with dst := w }
  | .len => { s with len := w }
  | .dstcap => { s with dstcap := w }
  | .result => s
  | .state => s
  | .status => s

/-- The value a window read returned goes to the host's record of the run (R59). -/
def logWindowRead (s : State) (w : Word) : State := { s with windowReads := s.windowReads ++ [w] }

/-- The byte a byte-memory read returned goes to the host's record (log 10). -/
def logMemRead (s : State) (b : Byte) : State := { s with memReads := s.memReads ++ [b] }

/-- The host actions still to come. -/
def setPending (s : State) (as : List HostAction) : State := { s with pending := as }

end Sys2Proof.Machine
end

