-- ==== Sys2Proof/Machine/StepEngine.lean ====
section
/-!
DEFINITION. The step functions ENCODE_STEP and DECODE_STEP and the meanings of ENCSTEP and DECSTEP
(41_step_engine.md). Arithmetic is on unbounded integers (R8, R89).
-/

namespace Sys2Proof.Machine

/-- `ss = STEP_SIZE[step_idx]` (R82). Past the last entry, which no state with STEP_IDX at most 88 reads
(R88), a free value (log 6). -/
def stepSizeAt (t : Tables) (idx : BitVec 7) : Nat :=
  if h : idx.toNat < 89 then t.stepSize[idx.toNat].toNat else (Config.stepSizePast idx.toNat).toNat

/-- `STEP_ADJUST[code & 7]` (R86). -/
def stepAdjustAt (t : Tables) (code : Code) : Int :=
  t.stepAdjust[(codeMagnitude code).toNat]'(codeMagnitude code).isLt

/-- `mag` of DECODE_STEP: the shift comes first, on a non-negative number, then the sign (R86, R87). -/
def decodeMag (ss : Nat) (code : Code) : Int :=
  let mag : Nat := (((codeMagnitude code).toNat * 2 + 1) * ss) >>> 3
  if codeSign code then -(mag : Int) else (mag : Int)

/-- DECODE_STEP (R86): the reconstructed sample and the Codec State after the step. `ss` and the
adjustment's base are the index before the step. -/
def decodeStep (t : Tables) (c : Codec) (code : Code) : Int × Codec :=
  let recon := clamp (int16 c.lastSample + decodeMag (stepSizeAt t c.stepIdx) code) (-32768) 32767
  let idx := clamp ((c.stepIdx.toNat : Int) + stepAdjustAt t code) 0 88
  (recon, { stepIdx := BitVec.ofInt 7 idx, lastSample := bits16 recon })

/-- The code of ENCODE_STEP for a difference: the sign bit, then the greedy tests of `ss`, `ss >> 1` and
`ss >> 2` on the magnitude left (R83, R84, R85; 90_conflicts.md C3). -/
def encodeCode (ss : Nat) (diff : Int) : Code :=
  let sign : Code := if diff < 0 then 8 else 0
  let d := diff.natAbs
  let bit2 : Code := if ss ≤ d then 4 else 0
  let d := if ss ≤ d then d - ss else d
  let bit1 : Code := if ss >>> 1 ≤ d then 2 else 0
  let d := if ss >>> 1 ≤ d then d - (ss >>> 1) else d
  let bit0 : Code := if ss >>> 2 ≤ d then 1 else 0
  sign ||| bit2 ||| bit1 ||| bit0

/-- ENCODE_STEP (R85): the code, and the Codec State that DECODE_STEP of that code leaves. -/
def encodeStep (t : Tables) (c : Codec) (sample : Sample) : Code × Codec :=
  let code := encodeCode (stepSizeAt t c.stepIdx) (int16 sample - int16 c.lastSample)
  (code, (decodeStep t c code).2)

/-- ENCSTEP (R90): RESULT is the code, zero-extended. -/
def execEncstep (sample : Sample) (s : State) : Host.Outcome State Fault Refusal :=
  let r := encodeStep s.params.tables s.codec sample
  unlessHalted s (setResult (setCodec s r.2) (r.1.setWidth 32))

/-- DECSTEP (R91): RESULT is the reconstructed sample, sign-extended. -/
def execDecstep (code : Code) (s : State) : Host.Outcome State Fault Refusal :=
  let r := decodeStep s.params.tables s.codec code
  unlessHalted s (setResult (setCodec s r.2) (bits32 r.1))

end Sys2Proof.Machine
end

