-- ==== Sys2Proof/Machine/BufferCodec.lean ====
section
/-!
DEFINITION. The meanings of ENC and DEC (42_buffer_codec.md): checks first (R119, R120), then the header,
then the loop over pairs or payload bytes.
-/

namespace Sys2Proof.Machine

/-- The loop of ENC over `n` pairs (R96, R97, R99): samples from `src` up, payload bytes to `o` up. Every
sample goes to ENCODE_STEP unshifted (R109; 90_conflicts.md C1). -/
def encLoop (t : Tables) : Nat → Nat → Nat → Codec → Memory → Codec × Memory
  | 0, _, _, c, m => (c, m)
  | n + 1, src, o, c, m =>
    let r0 := encodeStep t c (memRead16 m src)
    let r1 := encodeStep t r0.2 (memRead16 m (src + 2))
    encLoop t n (src + 4) (o + 1) r1.2 (memWrite m o (packNibbles r0.1 r1.1))

/-- The loop of DEC over `n` payload bytes (R105, R106, R107): bytes from `p` up, samples to `o` up. -/
def decLoop (t : Tables) : Nat → Nat → Nat → Codec → Memory → Codec × Memory
  | 0, _, _, c, m => (c, m)
  | n + 1, p, o, c, m =>
    let b := memRead m p
    let r0 := decodeStep t c (highNibble b)
    let r1 := decodeStep t r0.2 (lowNibble b)
    decLoop t n (p + 1) (o + 4) r1.2
      (memWrite16 (memWrite16 m o (bits16 r0.1)) (o + 2) (bits16 r1.1))

/-- ENC's header write: the Codec State before the first sample (R99, R100). -/
def encHeader (header : Bool) (c : Codec) (dst : Nat) (m : Memory) : Memory :=
  if header then memWriteList m dst (headerBytes c) else m

/-- DEC's header load, which overwrites the Codec State (R104, R105). -/
def decHeader (header : Bool) (c : Codec) (src : Nat) (m : Memory) : Codec :=
  if header then codecOfHeader (memRead m src) (memRead m (src + 1)) (memRead m (src + 2)) else c

/-- The effect phase of ENC (R99). -/
def encEffect (header : Bool) (s : State) : State :=
  let a := bufferArgs s
  let r := encLoop s.params.tables (encPairs a) a.src (a.dst + headerLen header) s.codec
    (encHeader header s.codec a.dst s.mem)
  setResult (setMem (setCodec s r.1) r.2) (BitVec.ofNat 32 (encOut header a))

/-- The effect phase of DEC (R105). -/
def decEffect (header : Bool) (s : State) : State :=
  let a := bufferArgs s
  let r := decLoop s.params.tables a.len (a.src + headerLen header) a.dst
    (decHeader header s.codec a.src s.mem) s.mem
  setResult (setMem (setCodec s r.1) r.2) (BitVec.ofNat 32 (2 * a.len))

/-- The check phase of ENC: SIZE, BUS, OVERLAP (R99, R119). -/
def encFault (header : Bool) (s : State) : FaultCode :=
  let a := bufferArgs s
  bufferFault s.params a (encIn a) (encOut header a)

/-- The check phase of DEC: SIZE, BUS, OVERLAP, HDRSTEP (R105, R119). -/
def decFault (header : Bool) (s : State) : FaultCode :=
  let a := bufferArgs s
  if bufferFault s.params a (decIn header a) (decOut a) = .clear then headerFault s.mem header a.src
  else bufferFault s.params a (decIn header a) (decOut a)

/-- A command whose check phase answers `f`: its effect, or the fault and no other change (R118, R120). -/
def checked (s : State) (f : FaultCode) (effect : State) : State :=
  if f = .clear then effect else raiseFault s f

/-- ENC and ENC.H (R99). -/
def execEnc (header : Bool) (s : State) : Host.Outcome State Fault Refusal :=
  unlessHalted s (checked s (encFault header s) (encEffect header s))

/-- DEC and DEC.H (R105). -/
def execDec (header : Bool) (s : State) : Host.Outcome State Fault Refusal :=
  unlessHalted s (checked s (decFault header s) (decEffect header s))

end Sys2Proof.Machine
end

