-- ==== Sys2Proof/Machine/CodecState.lean ====
section
/-!
DEFINITION. The meaning of RESET (40_codec_state.md).
-/

namespace Sys2Proof.Machine

/-- RESET (R79, R80): the Codec State to (0, 0) and nothing else; it does not clear a fault. -/
def execReset (s : State) : Host.Outcome State Fault Refusal :=
  unlessHalted s (setCodec s Codec.reset)

end Sys2Proof.Machine
end

