-- ==== Sys2Proof/Machine/Dispatch.lean ====
section
/-!
DEFINITION. The command map (R63): one meaning per command.
-/

namespace Sys2Proof.Machine

def exec (i : Instr) (s : State) : Host.Outcome State Fault Refusal :=
  match i with
  | .reset => Sys2Proof.Machine.execReset s
  | .encstep sample => Sys2Proof.Machine.execEncstep sample s
  | .decstep code => Sys2Proof.Machine.execDecstep code s
  | .enc header => Sys2Proof.Machine.execEnc header s
  | .dec header => Sys2Proof.Machine.execDec header s

end Sys2Proof.Machine
end

