-- ==== Sys2Proof/Machine/Bus.lean ====
section
/-!
DEFINITION. What each host action does (R58): a CMD write runs a command (R28, R61), the other window
accesses read and write registers (R36, R37), byte-memory accesses reach the memory alone (R41), and
hardware reset resets (R131). One step performs the next action of the run (R59).
-/

namespace Sys2Proof.Machine

/-- A write of the word `w` to CMD (R28, R61, R70): the command it decodes to, or the fault ILLEGAL; while
halted it is discarded (R121). -/
def cmdWrite (s : State) (w : Word) : Host.Outcome State Fault Refusal :=
  match decode w with
  | .command i => exec i s
  | .illegal _ => unlessHalted s (raiseFault s .illegal)

/-- A window write of `w` to a register (R28, R36, R37). -/
def windowWrite (s : State) (w : Word) : WReg → Host.Outcome State Fault Refusal
  | .cmd => cmdWrite s w
  | .src => .next (writeWindow s w .src)
  | .dst => .next (writeWindow s w .dst)
  | .len => .next (writeWindow s w .len)
  | .dstcap => .next (writeWindow s w .dstcap)
  | .result => .next (writeWindow s w .result)
  | .state => .next (writeWindow s w .state)
  | .status => .next (writeWindow s w .status)

/-- One host action (R58). A window access that is not an aligned word access to one of the eight
registers has no move (R36, U11; log 8). -/
def hostAction (s : State) : HostAction → Host.Outcome State Fault Refusal
  | .windowWrite addr size value =>
    match windowRegAt s.params addr size with
    | some r => windowWrite s value r
    | none => .refused .windowAccess
  | .windowRead addr size =>
    match windowRegAt s.params addr size with
    | some r => .next (logWindowRead s (readWindow s r))
    | none => .refused .windowAccess
  | .memWrite addr value => .next (setMem s (memWrite s.mem addr.toNat value))
  | .memRead addr => .next (logMemRead s (memRead s.mem addr.toNat))
  | .hardReset => .next (hardReset s)

/-- The next action of the run, taken off the list and performed (R52, R59). With no action left the block
is idle and holds its state (R130). -/
def nextAction (s : State) : Host.Outcome State Fault Refusal :=
  match s.pending with
  | [] => .next s
  | a :: rest => hostAction (setPending s rest) a

/-- The host action that writes `w` to CMD (R28). -/
def cmdAction (p : Params) (w : Word) : HostAction :=
  .windowWrite (p.regBase + windowOffset .cmd) .word w

/-- `s` with a CMD write of `w` as the host's very next action. -/
def issueCommand (s : State) (w : Word) : State := setPending s (cmdAction s.params w :: s.pending)

end Sys2Proof.Machine
end

