-- ==== Sys2Proof/Machine/Step.lean ====
section
/-!
DEFINITION. One step of the machine: the host's next action (R58, R59).
-/

namespace Sys2Proof.Machine

/-- One step: the next host action is performed; with none left the block idles. -/
def step (s : State) : Host.Outcome State Fault Refusal := nextAction s

/-- `s` with the command word of a table row as the host's next action: the block fetches nothing from
memory (R56), a command arrives only as a word written to CMD (log 2). -/
def State.withFetchWord (s : State) (nbits w : Nat) : State := issueCommand s (tableWord nbits w)

end Sys2Proof.Machine
end

