-- ==== Sys2Proof/Machine/Assembly.lean ====
section
/-!
DEFINITION. The host's side of a program (R74 to R76): the assembler's command forms and the words they
stand for, the disassembly of a word, and the host lines and pseudo-instructions as host actions.
-/

namespace Sys2Proof.Machine

/-- A command as the assembler takes it (R74). The operands are the numbers as written, so they can be out
of range. -/
inductive AsmCommand where
  | reset
  /-- `ENCSTEP <sample>` with a signed decimal. -/
  | encstep (sample : Int)
  /-- `ENCSTEP <sample>` with a hexadecimal pattern. -/
  | encstepHex (pattern : Nat)
  /-- `DECSTEP <code>`. -/
  | decstep (code : Nat)
  | enc
  /-- `ENC.H`. -/
  | encH
  | dec
  /-- `DEC.H`. -/
  | decH
  deriving DecidableEq, Repr

/-- The operand ranges of R74. -/
def asmInRange : AsmCommand → Bool
  | .reset => true
  | .encstep sample => -32768 ≤ sample && sample ≤ 32767
  | .encstepHex pattern => pattern ≤ 0xFFFF
  | .decstep code => code ≤ 15
  | .enc => true
  | .encH => true
  | .dec => true
  | .decH => true

/-- The command an assembler form stands for, its operand taken to its width (R74). -/
def asmInstr : AsmCommand → Instr
  | .reset => .reset
  | .encstep sample => .encstep (bits16 sample)
  | .encstepHex pattern => .encstep (BitVec.ofNat 16 pattern)
  | .decstep code => .decstep (BitVec.ofNat 4 code)
  | .enc => .enc false
  | .encH => .enc true
  | .dec => .dec false
  | .decH => .dec true

/-- The word of an assembler form, none where the operand is out of range (R74). -/
def assemble (c : AsmCommand) : Option Word :=
  if asmInRange c then some (encode (asmInstr c)) else none

/-- What the disassembler prints for a word (R74). -/
inductive Listing where
  /-- A command with no ignored bits set. -/
  | command (c : AsmCommand)
  /-- A DECSTEP with DATA[15:4] ≠ 0, which the comment shows. -/
  | ignoredBits (c : AsmCommand) (bits : BitVec 12)
  /-- An illegal word: `.word 0x<8 hex digits>`. -/
  | word (w : Word)
  deriving DecidableEq, Repr

/-- The disassembler (R74). DESIGN CHOICE (log 15), safe: of the two spellings R74 gives an ENCSTEP sample
it prints the signed decimal, and of a DECSTEP code the decimal. -/
def disassemble (w : Word) : Listing :=
  match decode w with
  | .command .reset => .command .reset
  | .command (.encstep sample) => .command (.encstep (int16 sample))
  | .command (.decstep code) =>
    if (fieldData w).extractLsb' 4 12 = 0 then .command (.decstep code.toNat)
    else .ignoredBits (.decstep code.toNat) ((fieldData w).extractLsb' 4 12)
  | .command (.enc header) => .command (if header then .encH else .enc)
  | .command (.dec header) => .command (if header then .decH else .dec)
  | .illegal _ => .word w

/-- The text of a number in `n` hexadecimal digits, capital letters (log 15). -/
def hexDigits : Nat → Nat → String
  | 0, _ => ""
  | n + 1, v => hexDigits n (v / 16) ++ ((Nat.digitChar (v % 16)).toUpper).toString

/-- The text of an assembler form (R74). -/
def asmText : AsmCommand → String
  | .reset => "RESET"
  | .encstep sample => "ENCSTEP " ++ toString sample
  | .encstepHex pattern => "ENCSTEP 0x" ++ hexDigits 4 pattern
  | .decstep code => "DECSTEP " ++ toString code
  | .enc => "ENC"
  | .encH => "ENC.H"
  | .dec => "DEC"
  | .decH => "DEC.H"

/-- The text of a listing line (R74). -/
def listingText : Listing → String
  | .command c => asmText c
  | .ignoredBits c bits => asmText c ++ " ; ignored bits 0x" ++ hexDigits 3 bits.toNat
  | .word w => ".word 0x" ++ hexDigits 8 w.toNat

/-- A line of a host program: the two host actions of R75, a command (shorthand for `WR CMD`), and the
pseudo-instructions of R76. -/
inductive HostLine where
  | wr (reg : WReg) (value : Word)
  | rd (reg : WReg)
  | command (i : Instr)
  | setbuf (src dst len cap : Word)
  | snapshot (addr : Word)
  | restore (addr : Word)
  deriving DecidableEq, Repr

/-- `WR <reg>, <value>` (R75). -/
def wrAction (p : Params) (reg : WReg) (value : Word) : HostAction :=
  .windowWrite (p.regBase + windowOffset reg) .word value

/-- `RD <reg>` (R75). -/
def rdAction (p : Params) (reg : WReg) : HostAction :=
  .windowRead (p.regBase + windowOffset reg) .word

/-- The host actions a line stands for: the expansions of R76. -/
def expandLine (p : Params) : HostLine → List HostAction
  | .wr reg value => [wrAction p reg value]
  | .rd reg => [rdAction p reg]
  | .command i => [wrAction p .cmd (encode i)]
  | .setbuf src dst len cap =>
    [wrAction p .src src, wrAction p .dst dst, wrAction p .len len, wrAction p .dstcap cap]
  | .snapshot addr =>
    [wrAction p .dst addr, wrAction p .len 0, wrAction p .dstcap 4, wrAction p .cmd (encode (.enc true))]
  | .restore addr =>
    [wrAction p .src addr, wrAction p .len 0, wrAction p .dstcap 0, wrAction p .cmd (encode (.dec true))]

/-- The host actions of a host program, line by line. -/
def expandProgram (p : Params) (lines : List HostLine) : List HostAction :=
  lines.flatMap (expandLine p)

/-! ### Reading the text of a host program (R74 to R76) -/

/-- A line without its `;` comment (R75). -/
def dropComment (line : List Char) : List Char := line.takeWhile fun c => c != ';'

/-- The words of a line: what stands between blanks and commas, `word` being the one begun. -/
def lineWords (word : List Char) : List Char → List (List Char)
  | [] => if word.isEmpty then [] else [word]
  | c :: rest =>
    if c == ' ' || c == '\t' || c == ',' then
      if word.isEmpty then lineWords [] rest else word :: lineWords [] rest
    else lineWords (word ++ [c]) rest

/-- The value of a decimal digit. -/
def decimalDigit (c : Char) : Option Nat :=
  if 48 ≤ c.toNat && c.toNat ≤ 57 then some (c.toNat - 48) else none

/-- The value of a hexadecimal digit, in either case. -/
def hexDigit (c : Char) : Option Nat :=
  if 65 ≤ c.toNat && c.toNat ≤ 70 then some (c.toNat - 55)
  else if 97 ≤ c.toNat && c.toNat ≤ 102 then some (c.toNat - 87)
  else decimalDigit c

/-- A number from its digits in a base, `acc` being the number read so far. -/
def readDigits (base : Nat) (digit : Char → Option Nat) (acc : Nat) : List Char → Option Nat
  | [] => some acc
  | c :: rest =>
    match digit c with
    | some d => readDigits base digit (acc * base + d) rest
    | none => none

/-- An unsigned number: decimal, or hexadecimal after `0x`. DESIGN CHOICE (log 15), safe: any number of
digits, leading zeros included, is taken; the ranges of R74 and R75 bound the value alone. -/
def readNumber : List Char → Option Nat
  | [] => none
  | ['0', 'x'] => none
  | '0' :: 'x' :: rest => readDigits 16 hexDigit 0 rest
  | c :: rest => readDigits 10 decimalDigit 0 (c :: rest)

/-- A 32-bit value of a host line (R75). -/
def readWord (word : List Char) : Option Word :=
  match readNumber word with
  | some n => if n < 2 ^ 32 then some (BitVec.ofNat 32 n) else none
  | none => none

/-- The operand of ENCSTEP: a signed decimal or a hexadecimal pattern (R74). A sign is `-` before decimal
digits, and no `+` is taken (DESIGN CHOICE, log 15). -/
def readSample : List Char → Option AsmCommand
  | ['-'] => none
  | '-' :: rest => (readDigits 10 decimalDigit 0 rest).map fun n => .encstep (-(n : Int))
  | '0' :: 'x' :: rest => (readNumber ('0' :: 'x' :: rest)).map .encstepHex
  | word => (readNumber word).map fun n => .encstep n

/-- A command that a host program may issue: its operand in range (R74). -/
def commandLine (c : AsmCommand) : Option HostLine :=
  if asmInRange c then some (.command (asmInstr c)) else none

/-- The names of the window registers (R75). -/
def readReg (word : List Char) : Option WReg :=
  if word = ['C', 'M', 'D'] then some .cmd
  else if word = ['S', 'R', 'C'] then some .src
  else if word = ['D', 'S', 'T'] then some .dst
  else if word = ['L', 'E', 'N'] then some .len
  else if word = ['D', 'S', 'T', 'C', 'A', 'P'] then some .dstcap
  else if word = ['R', 'E', 'S', 'U', 'L', 'T'] then some .result
  else if word = ['S', 'T', 'A', 'T', 'E'] then some .state
  else if word = ['S', 'T', 'A', 'T', 'U', 'S'] then some .status
  else none

/-- A line of a host program from its words: a command (R74), `WR` or `RD` (R75), or a pseudo-instruction
(R76). -/
def readLine : List (List Char) → Option HostLine
  | [['R', 'E', 'S', 'E', 'T']] => commandLine .reset
  | [['E', 'N', 'C']] => commandLine .enc
  | [['E', 'N', 'C', '.', 'H']] => commandLine .encH
  | [['D', 'E', 'C']] => commandLine .dec
  | [['D', 'E', 'C', '.', 'H']] => commandLine .decH
  | [['E', 'N', 'C', 'S', 'T', 'E', 'P'], x] => (readSample x).bind commandLine
  | [['D', 'E', 'C', 'S', 'T', 'E', 'P'], x] => (readNumber x).bind fun n => commandLine (.decstep n)
  | [['W', 'R'], r, v] => (readReg r).bind fun r => (readWord v).map fun v => .wr r v
  | [['R', 'D'], r] => (readReg r).map .rd
  | [['S', 'E', 'T', 'B', 'U', 'F'], a, b, c, d] =>
    (readWord a).bind fun a => (readWord b).bind fun b => (readWord c).bind fun c =>
      (readWord d).map fun d => .setbuf a b c d
  | [['S', 'N', 'A', 'P', 'S', 'H', 'O', 'T'], a] => (readWord a).map .snapshot
  | [['R', 'E', 'S', 'T', 'O', 'R', 'E'], a] => (readWord a).map .restore
  | _ => none

/-- The host actions of one line of text: none where the line is not one of R74 to R76, no action where it
is empty but for a comment. -/
def assembleLine (p : Params) (line : List Char) : Option (List HostAction) :=
  match lineWords [] (dropComment line) with
  | [] => some []
  | words => (readLine words).map (expandLine p)

end Sys2Proof.Machine
end

