-- ==== Sys2Proof/Safety.lean ====
section
/-!
DEFINITION. What the statements speak of: the conditions under which ENC and DEC complete, the coding of a
list of samples and of a list of codes, 32-bit step functions, chains of decode steps, runs of command
words, and the invariant of the machine.
-/

namespace Sys2Proof.Safety

open Sys2Proof.Machine

/-! ### Ranges and the conditions of ENC and DEC -/

/-- Every byte of a range is admitted and the range does not wrap; an empty range always passes (R49,
R115). -/
abbrev RangeOk (regions : List Region) (a n : Nat) : Prop :=
  n = 0 ∨ (a + n ≤ 2 ^ 32 ∧ ∀ i < n, admitted regions (a + i) = true)

/-- Two ranges share no byte (R53, R117). -/
abbrev RangesApart (a n b m : Nat) : Prop := n = 0 ∨ m = 0 ∨ a + n ≤ b ∨ b + m ≤ a

/-- Address `a` lies in the range of `n` bytes from `base`. -/
abbrev InRange (base n a : Nat) : Prop := base ≤ a ∧ a < base + n

/-- The header's length for a header flag (R98, R103). -/
abbrev headerSize (header : Bool) : Nat := if header then 4 else 0

/-- The number of bytes ENC writes (R98). -/
abbrev encSize (header : Bool) (s : State) : Nat := headerSize header + s.len.toNat / 2

/-- The number of bytes DEC writes (R103). -/
abbrev decSize (s : State) : Nat := 4 * s.len.toNat

/-- The source and destination bytes of ENC are admitted (R99, R115). -/
abbrev EncAdmitted (header : Bool) (s : State) : Prop :=
  RangeOk s.params.readable s.src.toNat (4 * (s.len.toNat / 2)) ∧
    RangeOk s.params.writable s.dst.toNat (encSize header s)

/-- ENC's source and destination share no byte (R99, R117). -/
abbrev EncApart (header : Bool) (s : State) : Prop :=
  RangesApart s.src.toNat (4 * (s.len.toNat / 2)) s.dst.toNat (encSize header s)

/-- The conditions under which ENC raises no fault (R99, R134). -/
abbrev EncReady (header : Bool) (s : State) : Prop :=
  encSize header s ≤ s.dstcap.toNat ∧ EncAdmitted header s ∧ EncApart header s

/-- The source and destination bytes of DEC are admitted (R105, R115). -/
abbrev DecAdmitted (header : Bool) (s : State) : Prop :=
  RangeOk s.params.readable s.src.toNat (headerSize header + s.len.toNat) ∧
    RangeOk s.params.writable s.dst.toNat (decSize s)

/-- DEC's source and destination share no byte (R105, R117). -/
abbrev DecApart (header : Bool) (s : State) : Prop :=
  RangesApart s.src.toNat (headerSize header + s.len.toNat) s.dst.toNat (decSize s)

/-- The header DEC.H reads holds a step index of at most 88 (R104, R116). -/
abbrev HeaderOk (header : Bool) (s : State) : Prop :=
  header = true → (memRead s.mem (s.src.toNat + 2)).toNat ≤ 88

/-- The conditions under which DEC raises no fault (R105, R134). -/
abbrev DecReady (header : Bool) (s : State) : Prop :=
  decSize s ≤ s.dstcap.toNat ∧ DecAdmitted header s ∧ DecApart header s ∧ HeaderOk header s

/-! ### Coding lists -/

/-- The `n` samples of a buffer at `p`: sample `i` at `p + 2*i` (R44). -/
def samplesAt (m : Memory) (p n : Nat) : List Sample :=
  (List.range n).map fun i => memRead16 m (p + 2 * i)

/-- The `n` bytes at `p`. -/
def bytesAt (m : Memory) (p n : Nat) : List Byte := (List.range n).map fun i => memRead m (p + i)

/-- The codes of payload bytes, high nibble first (R106). -/
def codesOf (bs : List Byte) : List Code := bs.flatMap fun b => [highNibble b, lowNibble b]

/-- ENCODE_STEP of each sample in order, each from the Codec State the one before left (R96): the codes
and the last Codec State. -/
def encodeList (t : Tables) : Codec → List Sample → List Code × Codec
  | c, [] => ([], c)
  | c, x :: xs =>
    let r := encodeStep t c x
    let rest := encodeList t r.2 xs
    (r.1 :: rest.1, rest.2)

/-- DECODE_STEP of each code in order: the reconstructed samples and the last Codec State (R106). -/
def decodeList (t : Tables) : Codec → List Code → List Sample × Codec
  | c, [] => ([], c)
  | c, k :: ks =>
    let r := decodeStep t c k
    let rest := decodeList t r.2 ks
    (bits16 r.1 :: rest.1, rest.2)

/-- `k` DECODE_STEPs lead from one Codec State to another (R23). -/
inductive DecodeSteps (t : Tables) : Nat → Codec → Codec → Prop where
  | done (c : Codec) : DecodeSteps t 0 c c
  | more (n : Nat) (c : Codec) (code : Code) (c' : Codec) :
      DecodeSteps t n (decodeStep t c code).2 c' → DecodeSteps t (n + 1) c c'

/-! ### The step functions in 32-bit signed arithmetic (R89) -/

/-- Saturation of a 32-bit signed number. -/
def clamp32 (v lo hi : Word) : Word := if v.slt lo then lo else if hi.slt v then hi else v

/-- DECODE_STEP with every intermediate value a 32-bit signed number that wraps (R89). -/
def decodeStep32 (t : Tables) (c : Codec) (code : Code) : Word × Codec :=
  let ss := BitVec.ofNat 32 (stepSizeAt t c.stepIdx)
  let mag := (((codeMagnitude code).setWidth 32 * 2 + 1) * ss).sshiftRight 3
  let mag := if codeSign code then -mag else mag
  let recon := clamp32 (c.lastSample.signExtend 32 + mag) (-32768) 32767
  let idx := clamp32 (c.stepIdx.setWidth 32 + BitVec.ofInt 32 (stepAdjustAt t code)) 0 88
  (recon, { stepIdx := idx.setWidth 7, lastSample := recon.setWidth 16 })

/-- The code of ENCODE_STEP with every intermediate value a 32-bit signed number that wraps (R89). -/
def encodeCode32 (t : Tables) (c : Codec) (sample : Sample) : Code :=
  let ss := BitVec.ofNat 32 (stepSizeAt t c.stepIdx)
  let diff := sample.signExtend 32 - c.lastSample.signExtend 32
  let d0 := if diff.slt 0 then -diff else diff
  let d1 := if ss.sle d0 then d0 - ss else d0
  let d2 := if (ss.sshiftRight 1).sle d1 then d1 - ss.sshiftRight 1 else d1
  BitVec.ofBool (diff.slt 0) ++ BitVec.ofBool (ss.sle d0) ++
    BitVec.ofBool ((ss.sshiftRight 1).sle d1) ++ BitVec.ofBool ((ss.sshiftRight 2).sle d2)

/-! ### Runs of command words -/

/-- The state after the host writes each word of a list to CMD in turn (R28, R123). -/
def runWords : State → List Word → State
  | s, [] => s
  | s, w :: ws =>
    match cmdWrite s w with
    | .next t => runWords t ws
    | .fault _ => s
    | .refused _ => s

/-! ### The invariant -/

/-- STEP_IDX indexes the table (R17, R19). -/
abbrev StepIndexOk (s : State) : Prop := s.codec.stepIdx.toNat ≤ 88

/-- What every step keeps: STEP_IDX in range (R19) and the memory in its canonical form. -/
abbrev Inv (s : State) : Prop := StepIndexOk s ∧ s.mem.wf

end Sys2Proof.Safety
end

