-- ==== Sys2Proof/Certificates/Slice0/Obligations.lean ====
section
/-!
DEFINITION. The statements about the codec core that are to be proved: encodings, what each command does
and leaves unchanged, faults and the halt, the window, reset, the invariants every step keeps, and the
round trips of the codec.
-/

open Sys2Proof Sys2Proof.Machine Sys2Proof.Safety

/-! ### Encoding -/

/-- The words of R77's examples decode as R77 says (R64 to R70). -/
def Obligations.SpecWordsDecode : Prop :=
  decode 0x10000000 = .command .reset ∧
  decode 0x20000000 = .command (.encstep 0) ∧
  decode 0x200003E8 = .command (.encstep (BitVec.ofInt 16 1000)) ∧
  decode 0x2000FFFF = .command (.encstep (BitVec.ofInt 16 (-1))) ∧
  decode 0x20008000 = .command (.encstep (BitVec.ofInt 16 (-32768))) ∧
  decode 0x30000007 = .command (.decstep 7) ∧
  decode 0x3000FFF7 = .command (.decstep 7) ∧
  decode 0x40000000 = .command (.enc false) ∧ decode 0x48000000 = .command (.enc true) ∧
  decode 0x50000000 = .command (.dec false) ∧ decode 0x58000000 = .command (.dec true) ∧
  decode 0x00000000 = .illegal .op ∧ decode 0x18000000 = .illegal .h ∧
  decode 0x10000001 = .illegal .data ∧ decode 0x20010000 = .illegal .rsv ∧
  decode 0x60000000 = .illegal .op

/-- R78: encoder and decoder are inverses on the legal words, except that a DECSTEP word loses its ignored
bits 15..4; and the word the assembler gives a command form decodes to that command. -/
def Obligations.DecodeAndEncodeAgree : Prop :=
  (∀ i : Instr, decode (encode i) = .command i) ∧
  (∀ (w : Word) (i : Instr), decode w = .command i →
    ((∃ code, i = .decstep code) ∧ encode i = w &&& 0xFFFF000F#32) ∨
    ((∀ code, i ≠ .decstep code) ∧ encode i = w)) ∧
  ∀ (c : AsmCommand) (w : Word), assemble c = some w → decode w = .command (asmInstr c)

/-- R70: the words the decoder rejects are exactly those of R70's four conditions; when the block is not
halted such a word faults with ILLEGAL and changes nothing but STATUS. -/
def Obligations.IllegalWordsFault : Prop :=
  ∀ (w : Word),
    ((∃ why, decode w = .illegal why) ↔ legalWord w = false) ∧
    (legalWord w = false ↔
      (w.toNat / 2 ^ 28 = 0 ∨ 6 ≤ w.toNat / 2 ^ 28) ∨
      w.toNat / 2 ^ 16 % 2 ^ 11 ≠ 0 ∨
      (w.toNat / 2 ^ 27 % 2 = 1 ∧ w.toNat / 2 ^ 28 ∈ [1, 2, 3]) ∨
      (w.toNat % 2 ^ 16 ≠ 0 ∧ w.toNat / 2 ^ 28 ∈ [1, 4, 5])) ∧
    ∀ s : State, halted s = false → legalWord w = false →
      cmdWrite s w = .next { s with fault := .illegal }

/-- R97, R106: a payload byte holds the first code in bits 7..4 and the second in bits 3..0, and unpacking
gives the two codes back. -/
def Obligations.NibblesPackAndUnpack : Prop :=
  ∀ (c0 c1 : Code) (b : Byte),
    (packNibbles c0 c1).toNat = 16 * c0.toNat + c1.toNat ∧
    highNibble (packNibbles c0 c1) = c0 ∧ lowNibble (packNibbles c0 c1) = c1 ∧
    packNibbles (highNibble b) (lowNibble b) = b

/-- R74: the assembler takes an operand exactly when it is in range, and its word then decodes to the
command with that operand. -/
def Obligations.AssemblerTakesOperandsInRange : Prop :=
  (∀ v : Int, -32768 ≤ v ∧ v ≤ 32767 →
    ∃ w x, assemble (.encstep v) = some w ∧ decode w = .command (.encstep x) ∧ x.toInt = v) ∧
  (∀ v : Int, ¬ (-32768 ≤ v ∧ v ≤ 32767) → assemble (.encstep v) = none) ∧
  (∀ n : Nat, n ≤ 0xFFFF →
    ∃ w x, assemble (.encstepHex n) = some w ∧ decode w = .command (.encstep x) ∧ x.toNat = n) ∧
  (∀ n : Nat, 0xFFFF < n → assemble (.encstepHex n) = none) ∧
  (∀ n : Nat, n ≤ 15 →
    ∃ w c, assemble (.decstep n) = some w ∧ decode w = .command (.decstep c) ∧ c.toNat = n ∧
      w.toNat / 16 % 4096 = 0) ∧
  (∀ n : Nat, 15 < n → assemble (.decstep n) = none)

/-! ### Reset and the step -/

/-- What reset leaves (R24, R27, R131): the Codec State (0, 0), every window register 0, no fault. -/
def Obligations.ResetStateHoldsSpecValues : Prop :=
  State.reset.codec.stepIdx = 0 ∧ State.reset.codec.lastSample = 0 ∧
  (∀ r : WReg, readWindow State.reset r = 0) ∧ halted State.reset = false

/-- R131: hardware reset sets every piece of the block's state and leaves the byte memory and the tables;
the block is then not halted and a CMD write that follows runs. That the other parameters, the actions to
come and the record of reads stay is the model's reading (DEDUCED, log 16). -/
def Obligations.HardwareResetAction : Prop :=
  ∀ (s : State) (rest : List HostAction), s.pending = .hardReset :: rest →
    ∃ t, step s = .next t ∧ t.codec.stepIdx = 0 ∧ t.codec.lastSample = 0 ∧
      t.src = 0 ∧ t.dst = 0 ∧ t.len = 0 ∧ t.dstcap = 0 ∧ t.result = 0 ∧
      statusWord t.fault = 0 ∧ stateView t.codec = 0 ∧ halted t = false ∧
      t.params = s.params ∧ t.mem = s.mem ∧ t.pending = rest ∧
      t.windowReads = s.windowReads ∧ t.memReads = s.memReads ∧
      ∀ (w : Word) (i : Instr) (later : List HostAction), decode w = .command i →
        rest = .windowWrite t.params.regBase .word w :: later →
        step t = exec i { t with pending := later }

/-- A step whose next host action writes a word to CMD takes the action off the list and is the CMD write
of that word: exactly the command it decodes to, or, for an illegal word, the fault ILLEGAL in a block that
is not halted and nothing in one that is (R28, R61, R70, R121). -/
def Obligations.StepRunsTheDecodedCommand : Prop :=
  ∀ (s : State) (w : Word) (rest : List HostAction),
    s.pending = .windowWrite s.params.regBase .word w :: rest →
    step s = cmdWrite { s with pending := rest } w ∧
    (∀ i : Instr, decode w = .command i → step s = exec i { s with pending := rest }) ∧
    (legalWord w = false → halted s = false →
      step s = .next { s with pending := rest, fault := .illegal }) ∧
    (legalWord w = false → halted s = true → step s = .next { s with pending := rest })

/-! ### The commands -/

/-- R80: RESET writes STEP_IDX and LAST_SAMPLE and nothing else, does not clear a fault, and is discarded
by a halted block. -/
def Obligations.ResetCommandWritesOnlyCodecState : Prop :=
  ∀ s : State,
    (halted s = false →
      exec .reset s = .next { s with codec := { stepIdx := 0, lastSample := 0 } }) ∧
    (halted s = true → exec .reset s = .next s)

/-- R86: DECODE_STEP, in the integers, as DECSTEP runs it from a state with STEP_IDX in range; RESULT is
the reconstructed sample as a 32-bit two's complement number, and nothing else changes (R91). -/
def Obligations.DecstepReconstructs : Prop :=
  ∀ (s : State) (code : Code) (h : s.codec.stepIdx.toNat < 89), halted s = false →
    let idx : Int := s.codec.stepIdx.toNat
    let ss : Int := (s.params.tables.stepSize[s.codec.stepIdx.toNat]).toNat
    let low3 : Int := code.toNat % 8
    let mag : Int := if 8 ≤ code.toNat then -((low3 * 2 + 1) * ss / 8) else (low3 * 2 + 1) * ss / 8
    let recon : Int := max (-32768) (min 32767 (s.codec.lastSample.toInt + mag))
    let idx' : Int := max 0 (min 88 (idx + s.params.tables.stepAdjust[code.toNat % 8]))
    ∃ c : Codec, (c.stepIdx.toNat : Int) = idx' ∧ c.lastSample.toInt = recon ∧
      exec (.decstep code) s = .next { s with codec := c, result := BitVec.ofInt 32 recon }

/-- R83, R84, R85: the code of ENCODE_STEP, in the integers, as ENCSTEP runs it from a state with STEP_IDX
in range; the Codec State it leaves is the one DECSTEP of that code leaves; RESULT is the code, and nothing
else changes (R90). -/
def Obligations.EncstepQuantizes : Prop :=
  ∀ (s : State) (x : Sample) (h : s.codec.stepIdx.toNat < 89), halted s = false →
    let ss : Nat := (s.params.tables.stepSize[s.codec.stepIdx.toNat]).toNat
    let diff : Int := x.toInt - s.codec.lastSample.toInt
    let d : Nat := diff.natAbs
    let bit3 : Nat := if diff < 0 then 1 else 0
    let bit2 : Nat := if ss ≤ d then 1 else 0
    let d1 : Nat := d - bit2 * ss
    let bit1 : Nat := if ss / 2 ≤ d1 then 1 else 0
    let d2 : Nat := d1 - bit1 * (ss / 2)
    let bit0 : Nat := if ss / 4 ≤ d2 then 1 else 0
    let code : Nat := 8 * bit3 + 4 * bit2 + 2 * bit1 + bit0
    ∃ t u, exec (.encstep x) s = .next t ∧ exec (.decstep (BitVec.ofNat 4 code)) s = .next u ∧
      t = { s with codec := u.codec, result := BitVec.ofNat 32 code }

/-- R92: the Codec State ENCSTEP leaves is the one DECSTEP of its code leaves from the same start, and its
LAST_SAMPLE is the value that DECSTEP returns. -/
def Obligations.EncodeAndDecodeStepsTrackEachOther : Prop :=
  ∀ (s : State) (x : Sample), halted s = false →
    ∃ t u, exec (.encstep x) s = .next t ∧ t.result.toNat < 16 ∧
      exec (.decstep (t.result.extractLsb' 0 4)) s = .next u ∧
      u.codec = t.codec ∧ u.result = t.codec.lastSample.signExtend 32

/-- R93: what ENCSTEP and DECSTEP leave in the Codec State and RESULT depends on the Codec State, the input
and the two tables alone. -/
def Obligations.StepCommandsDependOnlyOnCodecState : Prop :=
  ∀ (s s' : State) (i : Instr), ((∃ x, i = .encstep x) ∨ ∃ code, i = .decstep code) →
    s.codec = s'.codec → s.params.tables = s'.params.tables → halted s = false → halted s' = false →
    ∃ t t', exec i s = .next t ∧ exec i s' = .next t' ∧ t.codec = t'.codec ∧ t.result = t'.result

/-- The step functions on unbounded integers and in wrapping 32-bit signed arithmetic agree (R89), from
every Codec State, for any table of 16-bit step sizes and small adjustments. -/
def Obligations.StepsAgreeWith32BitArithmetic : Prop :=
  ∀ (t : Tables) (c : Codec) (x : Sample) (code : Code),
    (∀ k : Fin 8, -1024 ≤ t.stepAdjust[k] ∧ t.stepAdjust[k] ≤ 1024) →
    decodeStep32 t c code = (BitVec.ofInt 32 (decodeStep t c code).1, (decodeStep t c code).2) ∧
    encodeCode32 t c x = (encodeStep t c x).1

/-- R89's ranges of the intermediate values, with the default tables of R20 and R21 (log 5). -/
def Obligations.IntermediateValuesStayInRange : Prop :=
  ∀ (c : Codec) (x : Sample) (code : Code), c.stepIdx.toNat ≤ 88 →
    let ss := stepSizeAt defaultTables c.stepIdx
    let mag := decodeMag ss code
    7 ≤ ss ∧ ss ≤ 32767 ∧
    -65535 ≤ int16 x - int16 c.lastSample ∧ int16 x - int16 c.lastSample ≤ 65535 ∧
    ((codeMagnitude code).toNat * 2 + 1) * ss ≤ 491505 ∧
    -61438 ≤ mag ∧ mag ≤ 61438 ∧
    -94206 ≤ int16 c.lastSample + mag ∧ int16 c.lastSample + mag ≤ 94205 ∧
    -1 ≤ (c.stepIdx.toNat : Int) + stepAdjustAt defaultTables code ∧
    (c.stepIdx.toNat : Int) + stepAdjustAt defaultTables code ≤ 96

/-- ENC and ENC.H complete when the destination is large enough, every byte is admitted and the ranges are
apart: the Codec State is that after coding the even prefix of the samples, the header holds the state
before, payload byte `k` holds codes `2k` and `2k+1`, RESULT is the number of bytes written, and nothing
else changes (R95 to R102). -/
def Obligations.EncWritesThePackedCodes : Prop :=
  ∀ (s : State) (header : Bool), halted s = false → s.mem.wf → EncReady header s →
    let n := s.len.toNat / 2
    let e := encodeList s.params.tables s.codec (samplesAt s.mem s.src.toNat (2 * n))
    ∃ (m : Memory) (r : Word),
      exec (.enc header) s = .next { s with codec := e.2, result := r, mem := m } ∧
      r.toNat = headerSize header + n ∧
      (header = true →
        256 * (memRead m s.dst.toNat).toNat + (memRead m (s.dst.toNat + 1)).toNat =
          s.codec.lastSample.toNat ∧
        (memRead m (s.dst.toNat + 2)).toNat = s.codec.stepIdx.toNat ∧
        memRead m (s.dst.toNat + 3) = 0) ∧
      (∀ k < n, (memRead m (s.dst.toNat + headerSize header + k)).toNat =
        16 * (e.1.getD (2 * k) 0).toNat + (e.1.getD (2 * k + 1) 0).toNat) ∧
      (∀ a, ¬ InRange s.dst.toNat (headerSize header + n) a → memRead m a = memRead s.mem a) ∧
      m.wf

/-- DEC and DEC.H complete when the destination is large enough, every byte is admitted, the ranges are
apart and the header's index is in range: DEC.H loads the Codec State from header bytes 0 to 2, the payload
decodes high nibble first, sample `i` lies little-endian at `dst + 2*i`, RESULT is the number of samples,
and nothing else changes (R102 to R107). -/
def Obligations.DecWritesTheSamples : Prop :=
  ∀ (s : State) (header : Bool), halted s = false → s.mem.wf → DecReady header s →
    ∃ (c0 : Codec) (m : Memory) (r : Word),
      (header = false → c0 = s.codec) ∧
      (header = true →
        c0.lastSample.toNat = 256 * (memRead s.mem s.src.toNat).toNat +
          (memRead s.mem (s.src.toNat + 1)).toNat ∧
        c0.stepIdx.toNat = (memRead s.mem (s.src.toNat + 2)).toNat) ∧
      let d := decodeList s.params.tables c0
        (codesOf (bytesAt s.mem (s.src.toNat + headerSize header) s.len.toNat))
      exec (.dec header) s = .next { s with codec := d.2, result := r, mem := m } ∧
      r.toNat = 2 * s.len.toNat ∧
      (∀ i < 2 * s.len.toNat,
        (memRead m (s.dst.toNat + 2 * i)).toNat + 256 * (memRead m (s.dst.toNat + 2 * i + 1)).toNat =
          (d.1.getD i 0).toNat) ∧
      (∀ a, ¬ InRange s.dst.toNat (4 * s.len.toNat) a → memRead m a = memRead s.mem a) ∧
      m.wf

/-! ### Faults -/

/-- R119, ENC: the first check that fails is the fault reported, and the fault is all that happens: SIZE,
then BUS, then OVERLAP (R114, R115, R117). -/
def Obligations.EncReportsTheFirstFailedCheck : Prop :=
  ∀ (s : State) (header : Bool), halted s = false →
    (s.dstcap.toNat < encSize header s →
      exec (.enc header) s = .next { s with fault := .size }) ∧
    (encSize header s ≤ s.dstcap.toNat → ¬ EncAdmitted header s →
      exec (.enc header) s = .next { s with fault := .bus }) ∧
    (encSize header s ≤ s.dstcap.toNat → EncAdmitted header s → ¬ EncApart header s →
      exec (.enc header) s = .next { s with fault := .overlap })

/-- R119, DEC: the first check that fails is the fault reported, and the fault is all that happens: SIZE,
then BUS, then OVERLAP, then HDRSTEP (R114 to R117). -/
def Obligations.DecReportsTheFirstFailedCheck : Prop :=
  ∀ (s : State) (header : Bool), halted s = false →
    (s.dstcap.toNat < decSize s →
      exec (.dec header) s = .next { s with fault := .size }) ∧
    (decSize s ≤ s.dstcap.toNat → ¬ DecAdmitted header s →
      exec (.dec header) s = .next { s with fault := .bus }) ∧
    (decSize s ≤ s.dstcap.toNat → DecAdmitted header s → ¬ DecApart header s →
      exec (.dec header) s = .next { s with fault := .overlap }) ∧
    (decSize s ≤ s.dstcap.toNat → DecAdmitted header s → DecApart header s →
      header = true → 88 < (memRead s.mem (s.src.toNat + 2)).toNat →
      exec (.dec header) s = .next { s with fault := .hdrstep })

/-- R120: a CMD write that raises a fault in a block that was not halted changes STATUS and nothing else. -/
def Obligations.FaultChangesOnlyStatus : Prop :=
  ∀ (s t : State) (w : Word), halted s = false → cmdWrite s w = .next t → t.fault ≠ .clear →
    t = { s with fault := t.fault }

/-- R121: a halted block discards every CMD write; the other window writes and the window reads still
work; STATUS keeps its code through every step but hardware reset, which clears it. -/
def Obligations.HaltedBlockWaitsForHardwareReset : Prop :=
  ∀ s : State, halted s = true →
    (∀ w : Word, cmdWrite s w = .next s) ∧
    (∀ (r : WReg) (w : Word), r ∈ [WReg.src, .dst, .len, .dstcap] →
      ∃ t, windowWrite s w r = .next t ∧ readWindow t r = w) ∧
    (∀ (r : WReg) (rest : List HostAction),
      s.pending = .windowRead (s.params.regBase + windowOffset r) .word :: rest →
      step s = .next { s with pending := rest, windowReads := s.windowReads ++ [readWindow s r] }) ∧
    (∀ t : State, step s = .next t →
      t.fault = s.fault ∨ (∃ rest, s.pending = .hardReset :: rest ∧ t.fault = .clear)) ∧
    (∀ rest : List HostAction, s.pending = .hardReset :: rest →
      ∃ t, step s = .next t ∧ t.fault = .clear ∧ halted t = false)

/-- R123: after any sequence of command words on a block that was not halted, the recorded code is that of
the first word that faulted, and every word after it was discarded. -/
def Obligations.StatusNamesTheFirstFaultingCommand : Prop :=
  ∀ (s : State) (ws : List Word), halted s = false → halted (runWords s ws) = true →
    ∃ (before : List Word) (w : Word) (after : List Word) (f : FaultCode),
      ws = before ++ w :: after ∧ halted (runWords s before) = false ∧ f ≠ .clear ∧
      cmdWrite (runWords s before) w = .next { runWords s before with fault := f } ∧
      runWords s ws = { runWords s before with fault := f }

/-! ### The window -/

/-- R35, R113: FAULT is bit 0 of STATUS, FCODE bits 7..4, every other bit reads 0; FCODE is 0 with no
fault, 1 ILLEGAL, 2 SIZE, 3 BUS, 4 OVERLAP, 5 HDRSTEP; FAULT is 1 exactly when FCODE is not 0, and a host
write to STATUS is ignored. -/
def Obligations.StatusWordFields : Prop :=
  ∀ s : State,
    let w := readWindow s .status
    let fcode := w.toNat / 16 % 16
    (∀ (f : FaultCode) (n : Nat),
      (f, n) ∈ [(.clear, 0), (.illegal, 1), (.size, 2), (.bus, 3), (.overlap, 4), (.hdrstep, 5)] →
      (s.fault = f ↔ fcode = n)) ∧
    w.toNat / 2 % 8 = 0 ∧ w.toNat / 256 = 0 ∧
    (w.toNat % 2 = 1 ↔ fcode ≠ 0) ∧ (w.toNat % 2 = 1 ↔ halted s = true) ∧
    ∀ v : Word, windowWrite s v .status = .next s

/-- R34: STATE reads LAST_SAMPLE in bits 15..0, STEP_IDX in bits 22..16 and 0 above, and ignores writes. -/
def Obligations.StateWordFields : Prop :=
  (∀ s : State,
    let w := readWindow s .state
    w.toNat % 2 ^ 16 = s.codec.lastSample.toNat ∧ w.toNat / 2 ^ 16 = s.codec.stepIdx.toNat ∧
    ∀ v : Word, windowWrite s v .state = .next s) ∧
  readWindow State.reset .state = 0

/-- R27 to R36: a word access at one of the eight offsets reaches its register: a write to RESULT, STATE or
STATUS is ignored; a read returns the register, 0 for CMD (the words of STATE and STATUS are spelt out in
StateWordFields and StatusWordFields), and changes nothing but the host's record (the model's list, log
10). That every other window access is refused by name, a word access at no register's address among them,
is the model's reading (DEDUCED, log 8), and that an access is aligned when it is at REG_BASE plus an
offset, whatever REG_BASE is, is its choice (log 19). -/
def Obligations.WindowTakesAlignedWordsOnly : Prop :=
  ∀ (s : State) (rest : List HostAction),
    (∀ off v, off ∈ [0x14, 0x18, 0x1C] →
      s.pending = .windowWrite (s.params.regBase + off) .word v :: rest →
      step s = .next { s with pending := rest }) ∧
    (∀ off r, (off, r) ∈ [(0x00, WReg.cmd), (0x04, .src), (0x08, .dst), (0x0C, .len), (0x10, .dstcap),
        (0x14, .result), (0x18, .state), (0x1C, .status)] →
      windowOffset r = off ∧
      (s.pending = .windowRead (s.params.regBase + off) .word :: rest →
        step s = .next
          { s with pending := rest, windowReads := s.windowReads ++ [readWindow s r] })) ∧
    readWindow s .cmd = 0 ∧ readWindow s .src = s.src ∧ readWindow s .dst = s.dst ∧
    readWindow s .len = s.len ∧ readWindow s .dstcap = s.dstcap ∧ readWindow s .result = s.result ∧
    (∀ addr size v, (size ≠ .word ∨ ∀ r, addr ≠ s.params.regBase + windowOffset r) →
      (s.pending = .windowWrite addr size v :: rest ∨ s.pending = .windowRead addr size :: rest) →
      step s = .refused .windowAccess)

/-- R37, with R29 to R32: a write to SRC, DST, LEN or DSTCAP is taken whether or not the block is halted,
reads back whole, and changes nothing else. -/
def Obligations.ArgumentRegistersTakeWrites : Prop :=
  ∀ (s : State) (v : Word) (rest : List HostAction),
    (s.pending = .windowWrite (s.params.regBase + 0x04) .word v :: rest →
      step s = .next { s with pending := rest, src := v }) ∧
    (s.pending = .windowWrite (s.params.regBase + 0x08) .word v :: rest →
      step s = .next { s with pending := rest, dst := v }) ∧
    (s.pending = .windowWrite (s.params.regBase + 0x0C) .word v :: rest →
      step s = .next { s with pending := rest, len := v }) ∧
    (s.pending = .windowWrite (s.params.regBase + 0x10) .word v :: rest →
      step s = .next { s with pending := rest, dstcap := v })

/-- The host's byte-memory accesses reach the memory alone: a write changes the one byte, a read returns
what was last written there (R41, R48, R60). That this holds at every address, whatever MemReadable and
MemWritable admit, is the model's reading (DEDUCED, log 9, unsafe: R59 says nothing of what a byte outside
the admitted set holds). The record to which a read adds its byte is the model's (DESIGN CHOICE, log 10). -/
def Obligations.HostMemoryAccessesReachOneByte : Prop :=
  ∀ (s : State) (a : Word) (b : Byte) (rest : List HostAction), s.mem.wf →
    (s.pending = .memWrite a b :: rest →
      ∃ m, step s = .next { s with pending := rest, mem := m } ∧ m.wf ∧
        ∀ x, memRead m x = if x = a.toNat then b else memRead s.mem x) ∧
    (s.pending = .memRead a :: rest →
      step s = .next { s with pending := rest, memReads := s.memReads ++ [memRead s.mem a.toNat] })

/-! ### Frames and rules of the whole machine -/

/-- The frame of RESET, ENCSTEP and DECSTEP: they change at most the Codec State and RESULT (RESET not
RESULT), and no byte of memory (R43, R80, R90, R91). -/
def Obligations.RegisterCommandsFrame : Prop :=
  ∀ (i : Instr) (s t : State),
    (i = .reset ∨ (∃ x, i = .encstep x) ∨ ∃ code, i = .decstep code) → exec i s = .next t →
    t = { s with codec := t.codec, result := t.result } ∧ (i = .reset → t.result = s.result) ∧
    ∀ a, memRead t.mem a = memRead s.mem a

/-- The frame of ENC: at most the Codec State, RESULT, STATUS and the bytes it writes change; a fault
excludes the other changes (R43, R99, R120). -/
def Obligations.EncFrame : Prop :=
  ∀ (header : Bool) (s t : State), exec (.enc header) s = .next t →
    t = { s with codec := t.codec, result := t.result, fault := t.fault, mem := t.mem } ∧
    (t.fault ≠ s.fault → t = { s with fault := t.fault }) ∧
    ∀ a, ¬ InRange (bufferArgs s).dst (encOut header (bufferArgs s)) a →
      memRead t.mem a = memRead s.mem a

/-- The frame of DEC: at most the Codec State, RESULT, STATUS and the bytes it writes change; a fault
excludes the other changes (R43, R105, R120). -/
def Obligations.DecFrame : Prop :=
  ∀ (header : Bool) (s t : State), exec (.dec header) s = .next t →
    t = { s with codec := t.codec, result := t.result, fault := t.fault, mem := t.mem } ∧
    (t.fault ≠ s.fault → t = { s with fault := t.fault }) ∧
    ∀ a, ¬ InRange (bufferArgs s).dst (decOut (bufferArgs s)) a →
      memRead t.mem a = memRead s.mem a

/-- R23: the Codec State changes only by hardware reset, by RESET, by decode steps (one for a step
command, one for each sample of a buffer command), and by DEC.H's header load before its decode steps. -/
def Obligations.CodecStateChangesOnlyByItsPaths : Prop :=
  ∀ s t : State, step s = .next t → t.codec ≠ s.codec →
    (∃ rest, s.pending = .hardReset :: rest ∧ t.codec = { stepIdx := 0, lastSample := 0 }) ∨
    ∃ (w : Word) (rest : List HostAction) (i : Instr),
      s.pending = .windowWrite s.params.regBase .word w :: rest ∧ decode w = .command i ∧
      s.fault = .clear ∧ t.fault = .clear ∧
      ((i = .reset ∧ t.codec = { stepIdx := 0, lastSample := 0 }) ∨
       ((∃ x, i = .encstep x) ∧ DecodeSteps s.params.tables 1 s.codec t.codec) ∨
       ((∃ code, i = .decstep code) ∧ DecodeSteps s.params.tables 1 s.codec t.codec) ∨
       ((∃ h, i = .enc h) ∧ DecodeSteps s.params.tables (2 * (s.len.toNat / 2)) s.codec t.codec) ∨
       (i = .dec false ∧ DecodeSteps s.params.tables (2 * s.len.toNat) s.codec t.codec) ∨
       (i = .dec true ∧ ∃ c : Codec,
          c.lastSample.toNat = 256 * (memRead s.mem s.src.toNat).toNat +
            (memRead s.mem (s.src.toNat + 1)).toNat ∧
          c.stepIdx.toNat = (memRead s.mem (s.src.toNat + 2)).toNat ∧
          DecodeSteps s.params.tables (2 * s.len.toNat) c t.codec))

/-- R19: every step keeps STEP_IDX in 0..88 and LAST_SAMPLE a signed 16-bit value. -/
def Obligations.StepIndexStaysInRange : Prop :=
  ∀ s t : State, s.codec.stepIdx.toNat ≤ 88 → step s = .next t →
    t.codec.stepIdx.toNat ≤ 88 ∧
    -32768 ≤ t.codec.lastSample.toInt ∧ t.codec.lastSample.toInt ≤ 32767

/-- Every step keeps the invariant: STEP_IDX in range and the byte memory in its canonical form inside the
2^32-byte address space (R19, R41, R49). -/
def Obligations.StepKeepsTheInvariant : Prop :=
  ∀ s t : State, Inv s → step s = .next t → Inv t

/-- The invariant holds right after reset. -/
def Obligations.InvariantHoldsAtReset : Prop := Inv State.reset

/-- No step changes a parameter of the block: the tables, REG_BASE and the admitted bytes (R22, R39). -/
def Obligations.ParametersNeverChange : Prop :=
  ∀ s t : State, step s = .next t → t.params = s.params

/-- A command writes only bytes for which MemWritable holds (R42), whatever word it is. -/
def Obligations.CommandsWriteOnlyWritableBytes : Prop :=
  ∀ (s t : State) (w : Word), cmdWrite s w = .next t →
    ∀ a, admitted s.params.writable a = false → memRead t.mem a = memRead s.mem a

/-- A command reads only bytes for which MemReadable holds (R42): two blocks that differ only in other
bytes leave the same registers and write the same bytes. -/
def Obligations.CommandsReadOnlyReadableBytes : Prop :=
  ∀ (s t : State) (w : Word) (m : Memory), s.mem.wf → m.wf →
    (∀ a, admitted s.params.readable a = true → memRead m a = memRead s.mem a) →
    cmdWrite s w = .next t →
    ∃ t', cmdWrite { s with mem := m } w = .next { t with mem := t' } ∧
      ∀ a, memRead t' a = memRead t.mem a ∨
        (memRead t' a = memRead m a ∧ memRead t.mem a = memRead s.mem a)

/-- ENC reads only the samples it consumes (R43, R95): two blocks whose memories agree on the even prefix
of the source leave the same Codec State, RESULT and destination bytes, whatever an odd last sample is. -/
def Obligations.EncReadsOnlyConsumedSamples : Prop :=
  ∀ (s : State) (header : Bool) (m : Memory), halted s = false → s.mem.wf → m.wf →
    EncReady header s →
    (∀ a, InRange s.src.toNat (4 * (s.len.toNat / 2)) a → memRead m a = memRead s.mem a) →
    ∃ t t', exec (.enc header) s = .next t ∧ exec (.enc header) { s with mem := m } = .next t' ∧
      t.codec = t'.codec ∧ t.result = t'.result ∧
      ∀ a, InRange s.dst.toNat (encSize header s) a → memRead t.mem a = memRead t'.mem a

/-- R142 and R36: every CMD write ends in a next state, and a step stops only by refusing a window access
that is outside the model. -/
def Obligations.EveryCommandTerminates : Prop :=
  (∀ (s : State) (w : Word), ∃ t, cmdWrite s w = .next t) ∧
  ∀ s : State, (∃ t, step s = .next t) ∨
    (step s = .refused .windowAccess ∧ ∃ addr size rest,
      (size ≠ .word ∨ ∀ r, addr ≠ s.params.regBase + windowOffset r) ∧
      ((∃ v, s.pending = .windowWrite addr size v :: rest) ∨
        s.pending = .windowRead addr size :: rest))

/-! ### Boundaries and round trips -/

/-- The boundary lengths of R108: what ENC does with LEN 0 or 1 (the header's bytes as R101 gives them), DEC
with LEN 0 (the header load as R104 gives it), and both with lengths no buffer can hold. -/
def Obligations.BoundaryLengths : Prop :=
  ∀ s : State, halted s = false → s.mem.wf →
    (s.len.toNat ≤ 1 → exec (.enc false) s = .next { s with result := 0 }) ∧
    (s.len.toNat ≤ 1 → 4 ≤ s.dstcap.toNat → RangeOk s.params.writable s.dst.toNat 4 →
      ∃ m, exec (.enc true) s = .next { s with result := 4, mem := m } ∧
        256 * (memRead m s.dst.toNat).toNat + (memRead m (s.dst.toNat + 1)).toNat =
          s.codec.lastSample.toNat ∧
        (memRead m (s.dst.toNat + 2)).toNat = s.codec.stepIdx.toNat ∧
        memRead m (s.dst.toNat + 3) = 0 ∧ m.wf ∧
        ∀ a, ¬ InRange s.dst.toNat 4 a → memRead m a = memRead s.mem a) ∧
    (s.len = 0 → exec (.dec false) s = .next { s with result := 0 }) ∧
    (s.len = 0 → RangeOk s.params.readable s.src.toNat 4 →
      (memRead s.mem (s.src.toNat + 2)).toNat ≤ 88 →
      ∃ c : Codec, exec (.dec true) s = .next { s with codec := c, result := 0 } ∧
        c.lastSample.toNat = 256 * (memRead s.mem s.src.toNat).toNat +
          (memRead s.mem (s.src.toNat + 1)).toNat ∧
        c.stepIdx.toNat = (memRead s.mem (s.src.toNat + 2)).toNat) ∧
    (s.len = 0 → RangeOk s.params.readable s.src.toNat 4 →
      88 < (memRead s.mem (s.src.toNat + 2)).toNat →
      exec (.dec true) s = .next { s with fault := .hdrstep }) ∧
    (∀ header, s.len.toNat = 2 ^ 32 - 1 → s.dstcap.toNat < headerSize header + (2 ^ 31 - 1) →
      exec (.enc header) s = .next { s with fault := .size }) ∧
    (∀ header, 2 ^ 30 ≤ s.len.toNat / 2 → headerSize header + s.len.toNat / 2 ≤ s.dstcap.toNat →
      (2 ^ 32 < s.src.toNat + 4 * (s.len.toNat / 2) →
        exec (.enc header) s = .next { s with fault := .bus }) ∧
      (EncAdmitted header s → exec (.enc header) s = .next { s with fault := .overlap })) ∧
    (∀ header, 2 ^ 30 ≤ s.len.toNat → exec (.dec header) s = .next { s with fault := .size })

/-- The round trips of R110 and R111. ENC from any Codec State with the index in range, then DEC of what it
wrote, from the same start without a header or from any Codec State with one: DEC's samples are exactly the
LAST_SAMPLE values the encoder left after each sample, and both runs end in the same Codec State. -/
def Obligations.DecodingReproducesTheEncoder : Prop :=
  ∀ (s : State) (header : Bool) (c : Codec) (dst2 : Word),
    let n := s.len.toNat / 2
    let xs := samplesAt s.mem s.src.toNat (2 * n)
    halted s = false → s.mem.wf → s.codec.stepIdx.toNat ≤ 88 → EncReady header s →
    (header = false → c = s.codec) → 4 * n < 2 ^ 32 →
    RangeOk s.params.readable s.dst.toNat (headerSize header + n) →
    RangeOk s.params.writable dst2.toNat (4 * n) →
    RangesApart s.dst.toNat (headerSize header + n) dst2.toNat (4 * n) →
    ∃ t u, exec (.enc header) s = .next t ∧
      exec (.dec header)
        { t with
          codec := c
          src := s.dst
          dst := dst2
          len := BitVec.ofNat 32 n
          dstcap := BitVec.ofNat 32 (4 * n) } = .next u ∧
      u.codec = t.codec ∧ u.result.toNat = 2 * n ∧
      ∀ i < 2 * n, memRead16 u.mem (dst2.toNat + 2 * i) =
        (encodeList s.params.tables s.codec (xs.take (i + 1))).2.lastSample

/-- SNAPSHOT (R76): its four host actions write the 4-byte header of the Codec State at the address, leave
the Codec State and every other byte, and give RESULT 4. -/
def Obligations.SnapshotWritesTheHeader : Prop :=
  ∀ (s : State) (addr : Word) (rest : List HostAction), halted s = false → s.mem.wf →
    RangeOk s.params.writable addr.toNat 4 →
    s.pending = expandLine s.params (.snapshot addr) ++ rest →
    ∃ t, Host.Core.run core 4 s = .next t ∧ t.codec = s.codec ∧ t.result = 4 ∧
      t.pending = rest ∧ t.fault = .clear ∧
      256 * (memRead t.mem addr.toNat).toNat + (memRead t.mem (addr.toNat + 1)).toNat =
        s.codec.lastSample.toNat ∧
      (memRead t.mem (addr.toNat + 2)).toNat = s.codec.stepIdx.toNat ∧
      memRead t.mem (addr.toNat + 3) = 0 ∧
      ∀ a, ¬ InRange addr.toNat 4 a → memRead t.mem a = memRead s.mem a

/-- RESTORE (R76): its four host actions load the Codec State from the header at the address and give
RESULT 0, or fault HDRSTEP where byte 2 is above 88. -/
def Obligations.RestoreLoadsTheHeader : Prop :=
  ∀ (s : State) (addr : Word) (rest : List HostAction), halted s = false →
    RangeOk s.params.readable addr.toNat 4 →
    s.pending = expandLine s.params (.restore addr) ++ rest →
    ∃ t, Host.Core.run core 4 s = .next t ∧ t.pending = rest ∧ t.mem = s.mem ∧
      ((memRead s.mem (addr.toNat + 2)).toNat ≤ 88 →
        t.fault = .clear ∧ t.result = 0 ∧
        t.codec.lastSample.toNat =
          256 * (memRead s.mem addr.toNat).toNat + (memRead s.mem (addr.toNat + 1)).toNat ∧
        t.codec.stepIdx.toNat = (memRead s.mem (addr.toNat + 2)).toNat) ∧
      (88 < (memRead s.mem (addr.toNat + 2)).toNat →
        t.fault = .hdrstep ∧ t.codec = s.codec ∧ t.result = s.result)
end

