-- ==== Sys2Proof/Laws/State.lean ====
section
/-!
SUPPORT. One lemma per field of State per register update, so that no proof unfolds a record update.
-/

namespace Sys2Proof.Machine

variable (s : State)

/-! ### setCodec -/

@[simp] theorem setCodec_codec (c : Codec) : (setCodec s c).codec = c := rfl
@[simp] theorem setCodec_src (c : Codec) : (setCodec s c).src = s.src := rfl
@[simp] theorem setCodec_dst (c : Codec) : (setCodec s c).dst = s.dst := rfl
@[simp] theorem setCodec_len (c : Codec) : (setCodec s c).len = s.len := rfl
@[simp] theorem setCodec_dstcap (c : Codec) : (setCodec s c).dstcap = s.dstcap := rfl
@[simp] theorem setCodec_result (c : Codec) : (setCodec s c).result = s.result := rfl
@[simp] theorem setCodec_fault (c : Codec) : (setCodec s c).fault = s.fault := rfl
@[simp] theorem setCodec_mem (c : Codec) : (setCodec s c).mem = s.mem := rfl
@[simp] theorem setCodec_params (c : Codec) : (setCodec s c).params = s.params := rfl
@[simp] theorem setCodec_pending (c : Codec) : (setCodec s c).pending = s.pending := rfl
@[simp] theorem setCodec_windowReads (c : Codec) : (setCodec s c).windowReads = s.windowReads := rfl
@[simp] theorem setCodec_memReads (c : Codec) : (setCodec s c).memReads = s.memReads := rfl

/-! ### setResult -/

@[simp] theorem setResult_codec (w : Word) : (setResult s w).codec = s.codec := rfl
@[simp] theorem setResult_src (w : Word) : (setResult s w).src = s.src := rfl
@[simp] theorem setResult_dst (w : Word) : (setResult s w).dst = s.dst := rfl
@[simp] theorem setResult_len (w : Word) : (setResult s w).len = s.len := rfl
@[simp] theorem setResult_dstcap (w : Word) : (setResult s w).dstcap = s.dstcap := rfl
@[simp] theorem setResult_result (w : Word) : (setResult s w).result = w := rfl
@[simp] theorem setResult_fault (w : Word) : (setResult s w).fault = s.fault := rfl
@[simp] theorem setResult_mem (w : Word) : (setResult s w).mem = s.mem := rfl
@[simp] theorem setResult_params (w : Word) : (setResult s w).params = s.params := rfl
@[simp] theorem setResult_pending (w : Word) : (setResult s w).pending = s.pending := rfl
@[simp] theorem setResult_windowReads (w : Word) : (setResult s w).windowReads = s.windowReads := rfl
@[simp] theorem setResult_memReads (w : Word) : (setResult s w).memReads = s.memReads := rfl

/-! ### setMem -/

@[simp] theorem setMem_codec (m : Memory) : (setMem s m).codec = s.codec := rfl
@[simp] theorem setMem_src (m : Memory) : (setMem s m).src = s.src := rfl
@[simp] theorem setMem_dst (m : Memory) : (setMem s m).dst = s.dst := rfl
@[simp] theorem setMem_len (m : Memory) : (setMem s m).len = s.len := rfl
@[simp] theorem setMem_dstcap (m : Memory) : (setMem s m).dstcap = s.dstcap := rfl
@[simp] theorem setMem_result (m : Memory) : (setMem s m).result = s.result := rfl
@[simp] theorem setMem_fault (m : Memory) : (setMem s m).fault = s.fault := rfl
@[simp] theorem setMem_mem (m : Memory) : (setMem s m).mem = m := rfl
@[simp] theorem setMem_params (m : Memory) : (setMem s m).params = s.params := rfl
@[simp] theorem setMem_pending (m : Memory) : (setMem s m).pending = s.pending := rfl
@[simp] theorem setMem_windowReads (m : Memory) : (setMem s m).windowReads = s.windowReads := rfl
@[simp] theorem setMem_memReads (m : Memory) : (setMem s m).memReads = s.memReads := rfl

/-! ### raiseFault -/

@[simp] theorem raiseFault_codec (f : FaultCode) : (raiseFault s f).codec = s.codec := rfl
@[simp] theorem raiseFault_src (f : FaultCode) : (raiseFault s f).src = s.src := rfl
@[simp] theorem raiseFault_dst (f : FaultCode) : (raiseFault s f).dst = s.dst := rfl
@[simp] theorem raiseFault_len (f : FaultCode) : (raiseFault s f).len = s.len := rfl
@[simp] theorem raiseFault_dstcap (f : FaultCode) : (raiseFault s f).dstcap = s.dstcap := rfl
@[simp] theorem raiseFault_result (f : FaultCode) : (raiseFault s f).result = s.result := rfl
@[simp] theorem raiseFault_fault (f : FaultCode) : (raiseFault s f).fault = f := rfl
@[simp] theorem raiseFault_mem (f : FaultCode) : (raiseFault s f).mem = s.mem := rfl
@[simp] theorem raiseFault_params (f : FaultCode) : (raiseFault s f).params = s.params := rfl
@[simp] theorem raiseFault_pending (f : FaultCode) : (raiseFault s f).pending = s.pending := rfl
@[simp] theorem raiseFault_windowReads (f : FaultCode) : (raiseFault s f).windowReads = s.windowReads := rfl
@[simp] theorem raiseFault_memReads (f : FaultCode) : (raiseFault s f).memReads = s.memReads := rfl

/-! ### hardReset -/

@[simp] theorem hardReset_codec : (hardReset s).codec = Codec.reset := rfl
@[simp] theorem hardReset_src : (hardReset s).src = 0 := rfl
@[simp] theorem hardReset_dst : (hardReset s).dst = 0 := rfl
@[simp] theorem hardReset_len : (hardReset s).len = 0 := rfl
@[simp] theorem hardReset_dstcap : (hardReset s).dstcap = 0 := rfl
@[simp] theorem hardReset_result : (hardReset s).result = 0 := rfl
@[simp] theorem hardReset_fault : (hardReset s).fault = FaultCode.clear := rfl
@[simp] theorem hardReset_mem : (hardReset s).mem = s.mem := rfl
@[simp] theorem hardReset_params : (hardReset s).params = s.params := rfl
@[simp] theorem hardReset_pending : (hardReset s).pending = s.pending := rfl
@[simp] theorem hardReset_windowReads : (hardReset s).windowReads = s.windowReads := rfl
@[simp] theorem hardReset_memReads : (hardReset s).memReads = s.memReads := rfl

/-! ### logWindowRead -/

@[simp] theorem logWindowRead_codec (w : Word) : (logWindowRead s w).codec = s.codec := rfl
@[simp] theorem logWindowRead_src (w : Word) : (logWindowRead s w).src = s.src := rfl
@[simp] theorem logWindowRead_dst (w : Word) : (logWindowRead s w).dst = s.dst := rfl
@[simp] theorem logWindowRead_len (w : Word) : (logWindowRead s w).len = s.len := rfl
@[simp] theorem logWindowRead_dstcap (w : Word) : (logWindowRead s w).dstcap = s.dstcap := rfl
@[simp] theorem logWindowRead_result (w : Word) : (logWindowRead s w).result = s.result := rfl
@[simp] theorem logWindowRead_fault (w : Word) : (logWindowRead s w).fault = s.fault := rfl
@[simp] theorem logWindowRead_mem (w : Word) : (logWindowRead s w).mem = s.mem := rfl
@[simp] theorem logWindowRead_params (w : Word) : (logWindowRead s w).params = s.params := rfl
@[simp] theorem logWindowRead_pending (w : Word) : (logWindowRead s w).pending = s.pending := rfl
@[simp] theorem logWindowRead_windowReads (w : Word) : (logWindowRead s w).windowReads = s.windowReads ++ [w] := rfl
@[simp] theorem logWindowRead_memReads (w : Word) : (logWindowRead s w).memReads = s.memReads := rfl

/-! ### logMemRead -/

@[simp] theorem logMemRead_codec (b : Byte) : (logMemRead s b).codec = s.codec := rfl
@[simp] theorem logMemRead_src (b : Byte) : (logMemRead s b).src = s.src := rfl
@[simp] theorem logMemRead_dst (b : Byte) : (logMemRead s b).dst = s.dst := rfl
@[simp] theorem logMemRead_len (b : Byte) : (logMemRead s b).len = s.len := rfl
@[simp] theorem logMemRead_dstcap (b : Byte) : (logMemRead s b).dstcap = s.dstcap := rfl
@[simp] theorem logMemRead_result (b : Byte) : (logMemRead s b).result = s.result := rfl
@[simp] theorem logMemRead_fault (b : Byte) : (logMemRead s b).fault = s.fault := rfl
@[simp] theorem logMemRead_mem (b : Byte) : (logMemRead s b).mem = s.mem := rfl
@[simp] theorem logMemRead_params (b : Byte) : (logMemRead s b).params = s.params := rfl
@[simp] theorem logMemRead_pending (b : Byte) : (logMemRead s b).pending = s.pending := rfl
@[simp] theorem logMemRead_windowReads (b : Byte) : (logMemRead s b).windowReads = s.windowReads := rfl
@[simp] theorem logMemRead_memReads (b : Byte) : (logMemRead s b).memReads = s.memReads ++ [b] := rfl

/-! ### setPending -/

@[simp] theorem setPending_codec (as : List HostAction) : (setPending s as).codec = s.codec := rfl
@[simp] theorem setPending_src (as : List HostAction) : (setPending s as).src = s.src := rfl
@[simp] theorem setPending_dst (as : List HostAction) : (setPending s as).dst = s.dst := rfl
@[simp] theorem setPending_len (as : List HostAction) : (setPending s as).len = s.len := rfl
@[simp] theorem setPending_dstcap (as : List HostAction) : (setPending s as).dstcap = s.dstcap := rfl
@[simp] theorem setPending_result (as : List HostAction) : (setPending s as).result = s.result := rfl
@[simp] theorem setPending_fault (as : List HostAction) : (setPending s as).fault = s.fault := rfl
@[simp] theorem setPending_mem (as : List HostAction) : (setPending s as).mem = s.mem := rfl
@[simp] theorem setPending_params (as : List HostAction) : (setPending s as).params = s.params := rfl
@[simp] theorem setPending_pending (as : List HostAction) : (setPending s as).pending = as := rfl
@[simp] theorem setPending_windowReads (as : List HostAction) : (setPending s as).windowReads = s.windowReads := rfl
@[simp] theorem setPending_memReads (as : List HostAction) : (setPending s as).memReads = s.memReads := rfl

end Sys2Proof.Machine
end

