-- ==== Sys2Proof/Laws/Checks.lean ====
section
/-!
SUPPORT. The halt (R121), the range checks (R49, R115, R117) and the check phases of ENC and DEC (R119):
what each answers, said once.
-/

namespace Sys2Proof.Machine

open Sys2Proof.Safety

/-! ### The halt -/

/-- The block is halted exactly while a fault is recorded (R35, R38). -/
theorem halted_iff (s : State) : halted s = true ↔ s.fault ≠ .clear := by
  unfold halted
  cases s.fault <;> simp [faultFlag]

theorem not_halted_iff (s : State) : halted s = false ↔ s.fault = .clear := by
  unfold halted
  cases s.fault <;> simp [faultFlag]

@[simp] theorem halted_setPending (s : State) (as : List HostAction) :
    halted (setPending s as) = halted s := rfl

/-- Not halted, a command has its effect. -/
theorem unlessHalted_running (s t : State) (h : halted s = false) : unlessHalted s t = .next t := by
  simp [unlessHalted, h]

/-- Halted, a command is discarded (R121). -/
theorem unlessHalted_halted (s t : State) (h : halted s = true) : unlessHalted s t = .next s := by
  simp [unlessHalted, h]

/-- All that a command behind the halt can do. -/
theorem unlessHalted_next (s t u : State) (h : unlessHalted s t = .next u) :
    (halted s = true ∧ u = s) ∨ (halted s = false ∧ u = t) := by
  cases hh : halted s with
  | true => rw [unlessHalted_halted s t hh] at h; cases h; exact .inl ⟨rfl, rfl⟩
  | false => rw [unlessHalted_running s t hh] at h; cases h; exact .inr ⟨rfl, rfl⟩

/-- A command never stops the machine. -/
theorem unlessHalted_answers (s t : State) : ∃ u, unlessHalted s t = .next u := by
  cases hh : halted s with
  | true => exact ⟨s, unlessHalted_halted s t hh⟩
  | false => exact ⟨t, unlessHalted_running s t hh⟩

/-! ### Ranges -/

theorem allFrom_iff (p : Nat → Bool) (a n : Nat) :
    allFrom p a n = true ↔ ∀ i < n, p (a + i) = true := by
  induction n generalizing a with
  | zero => simp [allFrom]
  | succ n ih =>
    simp only [allFrom, Bool.and_eq_true, ih]
    constructor
    · rintro ⟨h0, h⟩ i hi
      cases i with
      | zero => exact h0
      | succ i => rw [show a + (i + 1) = a + 1 + i by omega]; exact h i (by omega)
    · intro h
      refine ⟨h 0 (by omega), fun i hi => ?_⟩
      rw [show a + 1 + i = a + (i + 1) by omega]
      exact h (i + 1) (by omega)

/-- The BUS check of one range, in the words of R115. -/
theorem rangeAdmitted_iff (regions : List Region) (a n : Nat) :
    rangeAdmitted regions a n = true ↔ RangeOk regions a n := by
  simp only [rangeAdmitted, Bool.or_eq_true, Bool.and_eq_true, beq_iff_eq, decide_eq_true_eq, allFrom_iff]
  rfl

/-- The OVERLAP check fails exactly when the ranges are apart (R117). -/
theorem overlap_false_iff (a n b m : Nat) : overlap a n b m = false ↔ RangesApart a n b m := by
  simp only [overlap, RangesApart, Bool.and_eq_false_iff, decide_eq_false_iff_not]
  omega

/-! ### The check phases -/

/-- All that the shared checks can answer, in the order of R119. -/
theorem bufferFault_cases (p : Params) (a : BufferArgs) (nin nout : Nat) :
    (a.cap < nout ∧ bufferFault p a nin nout = .size) ∨
    (nout ≤ a.cap ∧ ¬ (RangeOk p.readable a.src nin ∧ RangeOk p.writable a.dst nout) ∧
      bufferFault p a nin nout = .bus) ∨
    (nout ≤ a.cap ∧ (RangeOk p.readable a.src nin ∧ RangeOk p.writable a.dst nout) ∧
      ¬ RangesApart a.src nin a.dst nout ∧ bufferFault p a nin nout = .overlap) ∨
    (nout ≤ a.cap ∧ (RangeOk p.readable a.src nin ∧ RangeOk p.writable a.dst nout) ∧
      RangesApart a.src nin a.dst nout ∧ bufferFault p a nin nout = .clear) := by
  unfold bufferFault
  rw [← rangeAdmitted_iff, ← rangeAdmitted_iff, ← overlap_false_iff]
  unfold rangeReadable rangeWritable
  by_cases h1 : a.cap < nout
  · exact .inl ⟨h1, if_pos h1⟩
  · rw [if_neg h1]
    have h1 : nout ≤ a.cap := by omega
    cases hr : rangeAdmitted p.readable a.src nin <;> cases hw : rangeAdmitted p.writable a.dst nout <;>
      cases ho : overlap a.src nin a.dst nout <;> simp [h1]

@[simp] theorem bufferArgs_src (s : State) : (bufferArgs s).src = s.src.toNat := rfl
@[simp] theorem bufferArgs_dst (s : State) : (bufferArgs s).dst = s.dst.toNat := rfl
@[simp] theorem bufferArgs_len (s : State) : (bufferArgs s).len = s.len.toNat := rfl
@[simp] theorem bufferArgs_cap (s : State) : (bufferArgs s).cap = s.dstcap.toNat := rfl
@[simp] theorem encPairs_bufferArgs (s : State) : encPairs (bufferArgs s) = s.len.toNat / 2 := rfl
@[simp] theorem encIn_bufferArgs (s : State) : encIn (bufferArgs s) = 4 * (s.len.toNat / 2) := rfl
@[simp] theorem headerLen_eq (header : Bool) : headerLen header = headerSize header := rfl
@[simp] theorem encOut_bufferArgs (header : Bool) (s : State) :
    encOut header (bufferArgs s) = encSize header s := rfl
@[simp] theorem decIn_bufferArgs (header : Bool) (s : State) :
    decIn header (bufferArgs s) = headerSize header + s.len.toNat := rfl
@[simp] theorem decOut_bufferArgs (s : State) : decOut (bufferArgs s) = decSize s := rfl

/-- All that the check phase of ENC can answer (R99, R119). -/
theorem encFault_cases (header : Bool) (s : State) :
    (s.dstcap.toNat < encSize header s ∧ encFault header s = .size) ∨
    (encSize header s ≤ s.dstcap.toNat ∧ ¬ EncAdmitted header s ∧ encFault header s = .bus) ∨
    (encSize header s ≤ s.dstcap.toNat ∧ EncAdmitted header s ∧ ¬ EncApart header s ∧
      encFault header s = .overlap) ∨
    (EncReady header s ∧ encFault header s = .clear) := by
  rcases bufferFault_cases s.params (bufferArgs s) (encIn (bufferArgs s))
      (encOut header (bufferArgs s)) with h | h | h | ⟨h1, h2, h3, h4⟩
  · exact .inl h
  · exact .inr (.inl h)
  · exact .inr (.inr (.inl h))
  · exact .inr (.inr (.inr ⟨⟨h1, h2, h3⟩, h4⟩))

theorem headerFault_cases (m : Memory) (header : Bool) (src : Nat) :
    ((header = true → (memRead m (src + 2)).toNat ≤ 88) ∧ headerFault m header src = .clear) ∨
    ((header = true ∧ 88 < (memRead m (src + 2)).toNat) ∧ headerFault m header src = .hdrstep) := by
  unfold headerFault
  cases header with
  | false => simp
  | true =>
    by_cases h : 88 < (memRead m (src + 2)).toNat
    · exact .inr ⟨⟨rfl, h⟩, by simp [h]⟩
    · exact .inl ⟨fun _ => by omega, by simp [h]⟩

/-- All that the check phase of DEC can answer (R105, R119). -/
theorem decFault_cases (header : Bool) (s : State) :
    (s.dstcap.toNat < decSize s ∧ decFault header s = .size) ∨
    (decSize s ≤ s.dstcap.toNat ∧ ¬ DecAdmitted header s ∧ decFault header s = .bus) ∨
    (decSize s ≤ s.dstcap.toNat ∧ DecAdmitted header s ∧ ¬ DecApart header s ∧
      decFault header s = .overlap) ∨
    (decSize s ≤ s.dstcap.toNat ∧ DecAdmitted header s ∧ DecApart header s ∧
      ¬ HeaderOk header s ∧ decFault header s = .hdrstep) ∨
    (DecReady header s ∧ decFault header s = .clear) := by
  unfold decFault
  rcases bufferFault_cases s.params (bufferArgs s) (decIn header (bufferArgs s))
      (decOut (bufferArgs s)) with ⟨h1, h⟩ | ⟨h1, h2, h⟩ | ⟨h1, h2, h3, h⟩ | ⟨h1, h2, h3, h⟩ <;>
    simp only [h]
  · exact .inl ⟨h1, rfl⟩
  · exact .inr (.inl ⟨h1, h2, rfl⟩)
  · exact .inr (.inr (.inl ⟨h1, h2, h3, rfl⟩))
  · rcases headerFault_cases s.mem header (bufferArgs s).src with ⟨h4, h5⟩ | ⟨h4, h5⟩
    · exact .inr (.inr (.inr (.inr ⟨⟨h1, h2, h3, h4⟩, h5⟩)))
    · refine .inr (.inr (.inr (.inl ⟨h1, h2, h3, fun hok => ?_, h5⟩)))
      have := hok h4.1
      simp only [bufferArgs_src] at h4
      omega

theorem checked_clear (s effect : State) (f : FaultCode) (h : f = .clear) :
    checked s f effect = effect := if_pos h

theorem checked_fault (s effect : State) (f : FaultCode) (h : f ≠ .clear) :
    checked s f effect = raiseFault s f := if_neg h

/-- All that a checked command can do: its effect, or the fault and nothing else (R120). -/
theorem checked_cases (s effect : State) (f : FaultCode) :
    (f = .clear ∧ checked s f effect = effect) ∨ (f ≠ .clear ∧ checked s f effect = raiseFault s f) := by
  by_cases h : f = .clear
  · exact .inl ⟨h, checked_clear s effect f h⟩
  · exact .inr ⟨h, checked_fault s effect f h⟩

end Sys2Proof.Machine
end

