-- ==== Sys2Proof/Laws/Memory.lean ====
section
/-!
SUPPORT. The laws of the byte memory: reading after writing (R48, R60), and the canonical form kept by
every memory operation.
-/

namespace Sys2Proof.Machine

@[simp] theorem memRead_nil (a : Nat) : memRead [] a = Config.blankByte := rfl

@[simp] theorem memRead_cons (k : Nat) (v : Byte) (rest : Memory) (a : Nat) :
    memRead ((k, v) :: rest) a = if k = a then v else memRead rest a := rfl

/-- An address with no entry reads as the blank byte. -/
theorem memRead_unlisted (m : Memory) (a : Nat) (h : ∀ c ∈ m, c.1 ≠ a) :
    memRead m a = Config.blankByte := by
  induction m with
  | nil => rfl
  | cons c rest ih =>
    obtain ⟨k, v⟩ := c
    have hk : k ≠ a := h (k, v) (by simp)
    rw [memRead_cons, if_neg hk]
    exact ih fun c hc => h c (by simp [hc])

theorem memRead_memCons_other (m : Memory) (a a' : Nat) (b : Byte) (h : a' ≠ a) :
    memRead (memCons a b m) a' = memRead m a' := by
  unfold memCons
  split
  · rfl
  · rw [memRead_cons, if_neg (Ne.symm h)]

theorem memRead_memCons_same (m : Memory) (a : Nat) (b : Byte) (h : ∀ c ∈ m, c.1 ≠ a) :
    memRead (memCons a b m) a = b := by
  unfold memCons
  split
  case isTrue hb => rw [memRead_unlisted m a h, hb]
  case isFalse => simp

/-- A write changes no byte but the one written (R48), in every memory. -/
theorem memRead_memWrite_other (m : Memory) (a a' : Nat) (b : Byte) (h : a' ≠ a) :
    memRead (memWrite m a b) a' = memRead m a' := by
  induction m with
  | nil => exact memRead_memCons_other [] a a' b h
  | cons c rest ih =>
    obtain ⟨k, v⟩ := c
    unfold memWrite
    split
    · exact memRead_memCons_other _ a a' b h
    split
    case isTrue hak =>
      rw [memRead_memCons_other _ a a' b h, memRead_cons, if_neg (by omega)]
    case isFalse => rw [memRead_cons, memRead_cons, ih]

/-- The byte written is the byte read, in a memory in canonical form. -/
theorem memRead_memWrite_same (m : Memory) (a : Nat) (b : Byte) (hm : m.wf) :
    memRead (memWrite m a b) a = b := by
  induction m with
  | nil => exact memRead_memCons_same [] a b (by simp)
  | cons c rest ih =>
    obtain ⟨k, v⟩ := c
    obtain ⟨hp, hc⟩ := hm
    have hrest : Memory.wf rest :=
      ⟨(List.pairwise_cons.mp hp).2, fun c h => hc c (by simp [h])⟩
    have hlt : ∀ c ∈ rest, k < c.1 := (List.pairwise_cons.mp hp).1
    unfold memWrite
    split
    case isTrue hak =>
      refine memRead_memCons_same _ a b fun c h => ?_
      rcases List.mem_cons.mp h with rfl | h
      · exact fun e => by simp only at e; omega
      · have := hlt c h; omega
    split
    case isTrue hak =>
      exact memRead_memCons_same rest a b fun c h => by have := hlt c h; omega
    case isFalse hne => rw [memRead_cons, if_neg (by omega), ih hrest]

/-- What a read after a write gives, at every address of a canonical memory (R48, R60). -/
theorem memRead_memWrite (m : Memory) (a a' : Nat) (b : Byte) (hm : m.wf) :
    memRead (memWrite m a b) a' = if a' = a then b else memRead m a' := by
  split
  case isTrue h => rw [h, memRead_memWrite_same m a b hm]
  case isFalse h => exact memRead_memWrite_other m a a' b h

theorem mem_memCons (m : Memory) (a : Nat) (b : Byte) (c : Host.Cell) (h : c ∈ memCons a b m) :
    (c = (a, b) ∧ b ≠ Config.blankByte) ∨ c ∈ m := by
  unfold memCons at h
  split at h
  · exact .inr h
  case isFalse hb => exact (List.mem_cons.mp h).imp (⟨·, hb⟩) id

theorem memCons_wf (m : Memory) (a : Nat) (b : Byte) (hm : m.wf) (ha : a < Config.addressSpace)
    (hlt : ∀ c ∈ m, a < c.1) : (memCons a b m).wf := by
  refine ⟨?_, fun c hc => ?_⟩
  · unfold memCons
    split
    · exact hm.1
    · exact List.pairwise_cons.mpr ⟨hlt, hm.1⟩
  · rcases mem_memCons m a b c hc with ⟨rfl, hb⟩ | hc
    · exact ⟨ha, hb⟩
    · exact hm.2 c hc

/-- Every entry of a written memory is the byte written or an entry there before. -/
theorem mem_memWrite (m : Memory) (a : Nat) (b : Byte) (c : Host.Cell) (h : c ∈ memWrite m a b) :
    c = (a, b) ∨ c ∈ m := by
  induction m with
  | nil => exact (mem_memCons [] a b c h).imp And.left id
  | cons x rest ih =>
    obtain ⟨k, v⟩ := x
    unfold memWrite at h
    split at h
    · exact (mem_memCons _ a b c h).imp And.left id
    split at h
    · exact (mem_memCons _ a b c h).imp And.left fun h => by simp [h]
    · rcases List.mem_cons.mp h with rfl | h
      · exact .inr (by simp)
      · exact (ih h).imp id fun h => by simp [h]

/-- A write inside the address space keeps the canonical form. -/
theorem memWrite_wf (m : Memory) (a : Nat) (b : Byte) (hm : m.wf) (ha : a < Config.addressSpace) :
    (memWrite m a b).wf := by
  induction m with
  | nil => exact memCons_wf [] a b hm ha (by simp)
  | cons x rest ih =>
    obtain ⟨k, v⟩ := x
    obtain ⟨hp, hc⟩ := hm
    have hrest : Memory.wf rest :=
      ⟨(List.pairwise_cons.mp hp).2, fun c h => hc c (by simp [h])⟩
    have hlt : ∀ c ∈ rest, k < c.1 := (List.pairwise_cons.mp hp).1
    unfold memWrite
    split
    case isTrue hak =>
      refine memCons_wf _ a b ⟨hp, hc⟩ ha fun c h => ?_
      rcases List.mem_cons.mp h with rfl | h
      · exact hak
      · exact lt_trans hak (hlt c h)
    split
    case isTrue hak =>
      exact memCons_wf rest a b hrest ha fun c h => by have := hlt c h; omega
    case isFalse h1 h2 =>
      refine ⟨List.pairwise_cons.mpr ⟨fun c h => ?_, (ih hrest).1⟩, fun c h => ?_⟩
      · rcases mem_memWrite rest a b c h with rfl | h
        · simp only; omega
        · exact hlt c h
      · rcases List.mem_cons.mp h with rfl | h
        · exact hc _ (by simp)
        · exact (ih hrest).2 c h

/-! ### Lists of bytes and samples -/

theorem memWriteList_wf (m : Memory) (a : Nat) (bs : List Byte) (hm : m.wf)
    (ha : a + bs.length ≤ Config.addressSpace) : (memWriteList m a bs).wf := by
  induction bs generalizing m a with
  | nil => exact hm
  | cons b bs ih =>
    simp only [List.length_cons] at ha
    exact ih _ _ (memWrite_wf m a b hm (by omega)) (by omega)

/-- Writing a list of bytes changes no byte outside its range. -/
theorem memRead_memWriteList_other (m : Memory) (a : Nat) (bs : List Byte) (x : Nat)
    (h : ¬ (a ≤ x ∧ x < a + bs.length)) : memRead (memWriteList m a bs) x = memRead m x := by
  induction bs generalizing m a with
  | nil => rfl
  | cons b bs ih =>
    simp only [List.length_cons] at h
    unfold memWriteList
    rw [ih _ _ (by omega), memRead_memWrite_other _ _ _ _ (by omega)]

/-- Writing a list of bytes stores the `i`-th at `a + i`. -/
theorem memRead_memWriteList (m : Memory) (a : Nat) (bs : List Byte) (i : Nat) (hm : m.wf)
    (ha : a + bs.length ≤ Config.addressSpace) (h : i < bs.length) :
    memRead (memWriteList m a bs) (a + i) = bs[i] := by
  induction bs generalizing m a i with
  | nil => exact absurd h (by simp)
  | cons b bs ih =>
    simp only [List.length_cons] at h ha
    unfold memWriteList
    cases i with
    | zero =>
      rw [memRead_memWriteList_other _ _ _ _ (by omega), Nat.add_zero,
        memRead_memWrite_same _ _ _ hm]
      rfl
    | succ i =>
      rw [show a + (i + 1) = a + 1 + i by omega,
        ih _ _ i (memWrite_wf m a b hm (by omega)) (by omega) (by omega)]
      rfl

theorem memWrite16_wf (m : Memory) (a : Nat) (v : Sample) (hm : m.wf)
    (ha : a + 2 ≤ Config.addressSpace) : (memWrite16 m a v).wf :=
  memWrite_wf _ _ _ (memWrite_wf _ _ _ hm (by omega)) (by omega)

/-- A sample write changes only its two bytes (R44). -/
theorem memRead_memWrite16_other (m : Memory) (a x : Nat) (v : Sample) (h : ¬ (a ≤ x ∧ x < a + 2)) :
    memRead (memWrite16 m a v) x = memRead m x := by
  unfold memWrite16
  rw [memRead_memWrite_other _ _ _ _ (by omega), memRead_memWrite_other _ _ _ _ (by omega)]

/-- The low byte of a sample lies at the lower address (R44). -/
theorem memRead_memWrite16_low (m : Memory) (a : Nat) (v : Sample) (hm : m.wf) :
    memRead (memWrite16 m a v) a = sampleLow v := by
  unfold memWrite16
  rw [memRead_memWrite_other _ _ _ _ (by omega), memRead_memWrite_same _ _ _ hm]

/-- The high byte of a sample lies at the next address (R44). -/
theorem memRead_memWrite16_high (m : Memory) (a : Nat) (v : Sample) (hm : m.wf)
    (ha : a < Config.addressSpace) : memRead (memWrite16 m a v) (a + 1) = sampleHigh v :=
  memRead_memWrite_same _ _ _ (memWrite_wf _ _ _ hm ha)

/-- The two bytes of a sample give it back (R44). -/
@[simp] theorem sampleOf_high_low (v : Sample) : sampleOf (sampleHigh v) (sampleLow v) = v := by
  unfold sampleOf sampleHigh sampleLow
  ext i hi
  simp only [BitVec.getElem_append, BitVec.getElem_extractLsb']
  split
  · simp [← BitVec.getLsbD_eq_getElem]
  · rw [← BitVec.getLsbD_eq_getElem]
    congr 1
    omega

/-- A sample read depends on its two bytes only (R44). -/
theorem memRead16_congr (m m' : Memory) (a : Nat) (h0 : memRead m a = memRead m' a)
    (h1 : memRead m (a + 1) = memRead m' (a + 1)) : memRead16 m a = memRead16 m' a := by
  unfold memRead16
  rw [h0, h1]

/-- A sample written is the sample read (R44, R60). -/
theorem memRead16_memWrite16 (m : Memory) (a : Nat) (v : Sample) (hm : m.wf)
    (ha : a < Config.addressSpace) : memRead16 (memWrite16 m a v) a = v := by
  unfold memRead16
  rw [memRead_memWrite16_low m a v hm, memRead_memWrite16_high m a v hm ha, sampleOf_high_low]

end Sys2Proof.Machine
end

