-- ==== Sys2Proof/Laws/Steps.lean ====
section
/-!
SUPPORT. The step functions (R82 to R94): clamps, ranges, and how the coding of a list splits.
-/

namespace Sys2Proof.Machine

open Sys2Proof.Safety

/-- A clamped value lies between the bounds (R10). -/
theorem clamp_range (v lo hi : Int) (h : lo ≤ hi) : lo ≤ clamp v lo hi ∧ clamp v lo hi ≤ hi := by
  unfold clamp
  split
  · omega
  · split <;> omega

/-- The value of the pattern of an in-range integer is that integer (R9). -/
theorem int16_bits16 (v : Int) (h : -32768 ≤ v ∧ v ≤ 32767) : int16 (bits16 v) = v := by
  unfold int16 bits16
  rw [BitVec.toInt_ofInt, Int.bmod_eq_of_le] <;> omega

/-- The step size of an index inside the table is the table's entry (R82). -/
theorem stepSizeAt_inside (t : Tables) (idx : BitVec 7) (h : idx.toNat < 89) :
    stepSizeAt t idx = t.stepSize[idx.toNat].toNat := dif_pos h

/-- A step size is a 16-bit number, inside the table or past it (R20). -/
theorem stepSizeAt_lt (t : Tables) (idx : BitVec 7) : stepSizeAt t idx < 65536 := by
  unfold stepSizeAt
  split <;> exact BitVec.isLt _

/-- The reconstructed sample is a 16-bit value (R86). -/
theorem decodeStep_recon_range (t : Tables) (c : Codec) (code : Code) :
    -32768 ≤ (decodeStep t c code).1 ∧ (decodeStep t c code).1 ≤ 32767 :=
  clamp_range _ _ _ (by omega)

/-- LAST_SAMPLE after DECODE_STEP holds the sample it returned (R86). -/
theorem decodeStep_lastSample (t : Tables) (c : Codec) (code : Code) :
    (decodeStep t c code).2.lastSample = bits16 (decodeStep t c code).1 := rfl

/-- The index after DECODE_STEP, as a number (R86). -/
theorem decodeStep_stepIdx (t : Tables) (c : Codec) (code : Code) :
    ((decodeStep t c code).2.stepIdx.toNat : Int) =
      clamp ((c.stepIdx.toNat : Int) + stepAdjustAt t code) 0 88 := by
  have h := clamp_range ((c.stepIdx.toNat : Int) + stepAdjustAt t code) 0 88 (by omega)
  simp only [decodeStep, BitVec.toNat_ofInt]
  omega

/-- DECODE_STEP leaves the index in range (R19, R94), from any Codec State. -/
theorem decodeStep_stepIdx_le (t : Tables) (c : Codec) (code : Code) :
    (decodeStep t c code).2.stepIdx.toNat ≤ 88 := by
  have h := clamp_range ((c.stepIdx.toNat : Int) + stepAdjustAt t code) 0 88 (by omega)
  have := decodeStep_stepIdx t c code
  omega

/-- ENCODE_STEP leaves the Codec State that DECODE_STEP of its code leaves (R85, R92). -/
theorem encodeStep_codec (t : Tables) (c : Codec) (x : Sample) :
    (encodeStep t c x).2 = (decodeStep t c (encodeStep t c x).1).2 := rfl

/-- ENCODE_STEP leaves the index in range (R19, R94). -/
theorem encodeStep_stepIdx_le (t : Tables) (c : Codec) (x : Sample) :
    (encodeStep t c x).2.stepIdx.toNat ≤ 88 := decodeStep_stepIdx_le t c _

/-! ### Lists -/

@[simp] theorem encodeList_nil (t : Tables) (c : Codec) : encodeList t c [] = ([], c) := rfl

@[simp] theorem encodeList_cons_codec (t : Tables) (c : Codec) (x : Sample) (xs : List Sample) :
    (encodeList t c (x :: xs)).2 = (encodeList t (encodeStep t c x).2 xs).2 := rfl

@[simp] theorem encodeList_cons_codes (t : Tables) (c : Codec) (x : Sample) (xs : List Sample) :
    (encodeList t c (x :: xs)).1 = (encodeStep t c x).1 :: (encodeList t (encodeStep t c x).2 xs).1 := rfl

@[simp] theorem decodeList_nil (t : Tables) (c : Codec) : decodeList t c [] = ([], c) := rfl

@[simp] theorem decodeList_cons_codec (t : Tables) (c : Codec) (k : Code) (ks : List Code) :
    (decodeList t c (k :: ks)).2 = (decodeList t (decodeStep t c k).2 ks).2 := rfl

@[simp] theorem decodeList_cons_samples (t : Tables) (c : Codec) (k : Code) (ks : List Code) :
    (decodeList t c (k :: ks)).1 =
      bits16 (decodeStep t c k).1 :: (decodeList t (decodeStep t c k).2 ks).1 := rfl

/-- One code per sample (R96). -/
@[simp] theorem encodeList_length (t : Tables) (c : Codec) (xs : List Sample) :
    (encodeList t c xs).1.length = xs.length := by
  induction xs generalizing c with
  | nil => rfl
  | cons x xs ih => simp [ih]

/-- One sample per code (R106). -/
@[simp] theorem decodeList_length (t : Tables) (c : Codec) (ks : List Code) :
    (decodeList t c ks).1.length = ks.length := by
  induction ks generalizing c with
  | nil => rfl
  | cons k ks ih => simp [ih]

@[simp] theorem samplesAt_length (m : Memory) (p n : Nat) : (samplesAt m p n).length = n := by
  simp [samplesAt]

@[simp] theorem bytesAt_length (m : Memory) (p n : Nat) : (bytesAt m p n).length = n := by
  simp [bytesAt]

theorem samplesAt_succ (m : Memory) (p n : Nat) :
    samplesAt m p (n + 1) = memRead16 m p :: samplesAt m (p + 2) n := by
  simp only [samplesAt, List.range_succ_eq_map, List.map_cons, List.map_map]
  refine congrArg₂ _ (by simp) (List.map_congr_left fun i _ => ?_)
  simp only [Function.comp_apply]
  congr 1
  omega

theorem bytesAt_succ (m : Memory) (p n : Nat) :
    bytesAt m p (n + 1) = memRead m p :: bytesAt m (p + 1) n := by
  simp only [bytesAt, List.range_succ_eq_map, List.map_cons, List.map_map]
  refine congrArg₂ _ (by simp) (List.map_congr_left fun i _ => ?_)
  simp only [Function.comp_apply]
  congr 1
  omega

/-- Samples depend on the bytes of their range only. -/
theorem samplesAt_congr (m m' : Memory) (p n : Nat)
    (h : ∀ a, p ≤ a → a < p + 2 * n → memRead m a = memRead m' a) :
    samplesAt m p n = samplesAt m' p n := by
  refine List.map_congr_left fun i hi => ?_
  have hi := List.mem_range.mp hi
  simp only [memRead16, h (p + 2 * i) (by omega) (by omega), h (p + 2 * i + 1) (by omega) (by omega)]

/-- Bytes depend on their range only. -/
theorem bytesAt_congr (m m' : Memory) (p n : Nat)
    (h : ∀ a, p ≤ a → a < p + n → memRead m a = memRead m' a) : bytesAt m p n = bytesAt m' p n := by
  refine List.map_congr_left fun i hi => ?_
  have hi := List.mem_range.mp hi
  exact h (p + i) (by omega) (by omega)

end Sys2Proof.Machine
end

