-- ==== Sys2Proof/Laws/Loops.lean ====
section
/-!
SUPPORT. What the loops of ENC and DEC do to the Codec State and to memory (R96 to R107): the coding of
the list of samples or codes that lies in the source range, stored in the destination range.
-/

namespace Sys2Proof.Machine

open Sys2Proof.Safety

/-! ### ENC -/

/-- The loop of ENC changes no byte outside its payload. -/
theorem encLoop_other (t : Tables) (n src o : Nat) (c : Codec) (m : Memory) (x : Nat)
    (h : ¬ (o ≤ x ∧ x < o + n)) : memRead (encLoop t n src o c m).2 x = memRead m x := by
  induction n generalizing src o c m with
  | zero => rfl
  | succ n ih =>
    simp only [encLoop]
    rw [ih _ _ _ _ (by omega), memRead_memWrite_other _ _ _ _ (by omega)]

/-- The loop of ENC keeps the canonical form. -/
theorem encLoop_wf (t : Tables) (n src o : Nat) (c : Codec) (m : Memory) (hm : m.wf)
    (ho : o + n ≤ Config.addressSpace) : Memory.wf (encLoop t n src o c m).2 := by
  induction n generalizing src o c m with
  | zero => exact hm
  | succ n ih => exact ih _ _ _ _ (memWrite_wf _ _ _ hm (by omega)) (by omega)

/-- The loop of ENC, with source and payload apart, leaves the Codec State that the coding of the source
samples leaves (R96). -/
theorem encLoop_codec (t : Tables) (n src o : Nat) (c : Codec) (m : Memory)
    (h : RangesApart src (4 * n) o n) :
    (encLoop t n src o c m).1 = (encodeList t c (samplesAt m src (2 * n))).2 := by
  induction n generalizing src o c m with
  | zero => rfl
  | succ n ih =>
    simp only [encLoop]
    rw [ih _ _ _ _ (by simp only [RangesApart] at h ⊢; omega),
      show 2 * (n + 1) = 2 * n + 1 + 1 by omega, samplesAt_succ, samplesAt_succ,
      samplesAt_congr (memWrite m o _) m (src + 4) (2 * n) fun a h1 h2 =>
        memRead_memWrite_other _ _ _ _ (by simp only [RangesApart] at h; omega)]
    rfl

/-- The loop of ENC stores code `2k` in the high and code `2k + 1` in the low nibble of payload byte `k`
(R97). -/
theorem encLoop_payload (t : Tables) (n src o : Nat) (c : Codec) (m : Memory) (k : Nat) (hm : m.wf)
    (ho : o + n ≤ Config.addressSpace) (h : RangesApart src (4 * n) o n) (hk : k < n) :
    memRead (encLoop t n src o c m).2 (o + k) =
      packNibbles ((encodeList t c (samplesAt m src (2 * n))).1.getD (2 * k) 0)
        ((encodeList t c (samplesAt m src (2 * n))).1.getD (2 * k + 1) 0) := by
  induction n generalizing src o c m k with
  | zero => exact absurd hk (by omega)
  | succ n ih =>
    rw [show 2 * (n + 1) = 2 * n + 1 + 1 by omega, samplesAt_succ, samplesAt_succ]
    simp only [encLoop]
    cases k with
    | zero =>
      rw [encLoop_other _ _ _ _ _ _ _ (by omega), show o + 0 = o from rfl,
        memRead_memWrite_same _ _ _ hm]
      rfl
    | succ k =>
      rw [show o + (k + 1) = o + 1 + k by omega,
        ih _ _ _ _ k (memWrite_wf _ _ _ hm (by omega)) (by omega)
          (by simp only [RangesApart] at h ⊢; omega) (by omega),
        samplesAt_congr (memWrite m o _) m (src + 4) (2 * n) fun a h1 h2 =>
          memRead_memWrite_other _ _ _ _ (by simp only [RangesApart] at h; omega)]
      rfl

/-! ### DEC -/

/-- Storing the two samples of a payload byte changes only their four bytes. -/
theorem decPair_other (m : Memory) (o x : Nat) (v0 v1 : Sample) (h : ¬ (o ≤ x ∧ x < o + 4)) :
    memRead (memWrite16 (memWrite16 m o v0) (o + 2) v1) x = memRead m x := by
  rw [memRead_memWrite16_other _ _ _ _ (by omega), memRead_memWrite16_other _ _ _ _ (by omega)]

/-- The loop of DEC changes no byte outside its samples. -/
theorem decLoop_other (t : Tables) (n p o : Nat) (c : Codec) (m : Memory) (x : Nat)
    (h : ¬ (o ≤ x ∧ x < o + 4 * n)) : memRead (decLoop t n p o c m).2 x = memRead m x := by
  induction n generalizing p o c m with
  | zero => rfl
  | succ n ih =>
    simp only [decLoop]
    rw [ih _ _ _ _ (by omega), memRead_memWrite16_other _ _ _ _ (by omega),
      memRead_memWrite16_other _ _ _ _ (by omega)]

/-- The loop of DEC keeps the canonical form. -/
theorem decLoop_wf (t : Tables) (n p o : Nat) (c : Codec) (m : Memory) (hm : m.wf)
    (ho : o + 4 * n ≤ Config.addressSpace) : Memory.wf (decLoop t n p o c m).2 := by
  induction n generalizing p o c m with
  | zero => exact hm
  | succ n ih =>
    exact ih _ _ _ _ (memWrite16_wf _ _ _ (memWrite16_wf _ _ _ hm (by omega)) (by omega)) (by omega)

@[simp] theorem codesOf_cons (b : Byte) (bs : List Byte) :
    codesOf (b :: bs) = highNibble b :: lowNibble b :: codesOf bs := rfl

@[simp] theorem codesOf_length (bs : List Byte) : (codesOf bs).length = 2 * bs.length := by
  induction bs with
  | nil => rfl
  | cons b bs ih => simp only [codesOf_cons, List.length_cons, ih]; omega

/-- The loop of DEC, with payload and samples apart, leaves the Codec State that decoding the payload's
codes leaves (R106). -/
theorem decLoop_codec (t : Tables) (n p o : Nat) (c : Codec) (m : Memory)
    (h : RangesApart p n o (4 * n)) :
    (decLoop t n p o c m).1 = (decodeList t c (codesOf (bytesAt m p n))).2 := by
  induction n generalizing p o c m with
  | zero => rfl
  | succ n ih =>
    simp only [decLoop]
    rw [ih _ _ _ _ (by simp only [RangesApart] at h ⊢; omega), bytesAt_succ,
      bytesAt_congr (memWrite16 (memWrite16 m o _) (o + 2) _) m (p + 1) n fun a h1 h2 => by
        simp only [RangesApart] at h
        rw [memRead_memWrite16_other _ _ _ _ (by omega), memRead_memWrite16_other _ _ _ _ (by omega)]]
    rfl

/-- The loop of DEC stores decoded sample `i`, little-endian, at `o + 2*i` (R107). -/
theorem decLoop_samples (t : Tables) (n p o : Nat) (c : Codec) (m : Memory) (i : Nat) (hm : m.wf)
    (ho : o + 4 * n ≤ Config.addressSpace) (h : RangesApart p n o (4 * n)) (hi : i < 2 * n) :
    memRead16 (decLoop t n p o c m).2 (o + 2 * i) =
      (decodeList t c (codesOf (bytesAt m p n))).1.getD i 0 := by
  induction n generalizing p o c m i with
  | zero => exact absurd hi (by omega)
  | succ n ih =>
    rw [bytesAt_succ]
    simp only [decLoop, codesOf_cons, decodeList_cons_samples]
    have hm1 := memWrite16_wf m o (bits16 (decodeStep t c (highNibble (memRead m p))).1) hm (by omega)
    rcases i with _ | _ | i
    case zero =>
      refine Eq.trans (memRead16_congr _ _ o ?_ ?_) (memRead16_memWrite16 m o _ hm (by omega))
      · rw [decLoop_other _ _ _ (o + 4) _ _ o (by omega), memRead_memWrite16_other _ (o + 2) o _ (by omega)]
        rfl
      · rw [decLoop_other _ _ _ (o + 4) _ _ (o + 1) (by omega),
          memRead_memWrite16_other _ (o + 2) (o + 1) _ (by omega)]
        rfl
    case succ.zero =>
      refine Eq.trans (memRead16_congr _ _ (o + 2) ?_ ?_)
        (memRead16_memWrite16 _ (o + 2) _ hm1 (by omega))
      · exact decLoop_other _ _ _ (o + 4) _ _ (o + 2) (by omega)
      · exact decLoop_other _ _ _ (o + 4) _ _ (o + 2 + 1) (by omega)
    case succ.succ =>
      have hm2 := memWrite16_wf _ (o + 2)
        (bits16 (decodeStep t (decodeStep t c (highNibble (memRead m p))).2
          (lowNibble (memRead m p))).1) hm1 (by omega)
      have hb := bytesAt_congr _ m (p + 1) n fun a h1 h2 =>
        decPair_other m o a (bits16 (decodeStep t c (highNibble (memRead m p))).1)
          (bits16 (decodeStep t (decodeStep t c (highNibble (memRead m p))).2
            (lowNibble (memRead m p))).1)
          (by simp only [RangesApart] at h; omega)
      rw [show o + 2 * (i + 1 + 1) = o + 4 + 2 * i by omega,
        ih (p + 1) (o + 4) _ _ i hm2 (by omega) (by simp only [RangesApart] at h ⊢; omega) (by omega), hb]
      rfl

/-! ### The index and the chains of decode steps -/

theorem encLoop_stepIdx_le (t : Tables) (n src o : Nat) (c : Codec) (m : Memory)
    (h : c.stepIdx.toNat ≤ 88) : (encLoop t n src o c m).1.stepIdx.toNat ≤ 88 := by
  induction n generalizing src o c m with
  | zero => exact h
  | succ n ih => exact ih _ _ _ _ (encodeStep_stepIdx_le t _ _)

theorem decLoop_stepIdx_le (t : Tables) (n p o : Nat) (c : Codec) (m : Memory)
    (h : c.stepIdx.toNat ≤ 88) : (decLoop t n p o c m).1.stepIdx.toNat ≤ 88 := by
  induction n generalizing p o c m with
  | zero => exact h
  | succ n ih => exact ih _ _ _ _ (decodeStep_stepIdx_le t _ _)

/-- ENC's loop runs two decode steps a pair (R23, R96). -/
theorem encLoop_steps (t : Tables) (n src o : Nat) (c : Codec) (m : Memory) :
    DecodeSteps t (2 * n) c (encLoop t n src o c m).1 := by
  induction n generalizing src o c m with
  | zero => exact .done c
  | succ n ih => exact .more _ _ _ _ (.more _ _ _ _ (ih _ _ _ _))

/-- DEC's loop runs two decode steps a byte (R23, R106). -/
theorem decLoop_steps (t : Tables) (n p o : Nat) (c : Codec) (m : Memory) :
    DecodeSteps t (2 * n) c (decLoop t n p o c m).1 := by
  induction n generalizing p o c m with
  | zero => exact .done c
  | succ n ih => exact .more _ _ _ _ (.more _ _ _ _ (ih _ _ _ _))

end Sys2Proof.Machine
end

