-- ==== Sys2Proof/Laws/Effects.lean ====
section
/-!
SUPPORT. What the effect phases of ENC and DEC leave (R99, R105), field by field, and what every command
and every host action can do: the inversion lemmas that proofs about steps cite.
-/

namespace Sys2Proof.Machine

open Sys2Proof.Safety

/-! ### The header -/

theorem encHeader_other (header : Bool) (c : Codec) (dst : Nat) (m : Memory) (x : Nat)
    (h : ¬ (dst ≤ x ∧ x < dst + headerSize header)) :
    memRead (encHeader header c dst m) x = memRead m x := by
  cases header with
  | false => rfl
  | true => exact memRead_memWriteList_other m dst (headerBytes c) x h

theorem encHeader_wf (header : Bool) (c : Codec) (dst : Nat) (m : Memory) (hm : m.wf)
    (h : dst + headerSize header ≤ Config.addressSpace) : (encHeader header c dst m).wf := by
  cases header with
  | false => exact hm
  | true => exact memWriteList_wf m dst (headerBytes c) hm h

/-- The four bytes of the header (R101, R102). -/
theorem encHeader_bytes (c : Codec) (dst : Nat) (m : Memory) (hm : m.wf)
    (h : dst + 4 ≤ Config.addressSpace) (i : Nat) (hi : i < 4) :
    memRead (encHeader true c dst m) (dst + i) = (headerBytes c)[i] :=
  memRead_memWriteList m dst (headerBytes c) i hm h hi

/-- The Codec State a header gives back is the one it was written from, for an index in range (R110). -/
theorem codecOfHeader_headerBytes (c : Codec) (b0 b1 b2 : Byte) (h0 : b0 = sampleHigh c.lastSample)
    (h1 : b1 = sampleLow c.lastSample) (h2 : b2 = c.stepIdx.setWidth 8) :
    codecOfHeader b0 b1 b2 = c := by
  subst h0 h1 h2
  obtain ⟨i, l⟩ := c
  simp only [codecOfHeader, sampleOf_high_low, Codec.mk.injEq, and_true]
  apply BitVec.eq_of_toNat_eq
  simp only [BitVec.extractLsb'_toNat, BitVec.toNat_setWidth]
  omega

/-! ### The effect of ENC -/

@[simp] theorem encEffect_src (header : Bool) (s : State) : (encEffect header s).src = s.src := rfl
@[simp] theorem encEffect_dst (header : Bool) (s : State) : (encEffect header s).dst = s.dst := rfl
@[simp] theorem encEffect_len (header : Bool) (s : State) : (encEffect header s).len = s.len := rfl
@[simp] theorem encEffect_dstcap (header : Bool) (s : State) :
    (encEffect header s).dstcap = s.dstcap := rfl
@[simp] theorem encEffect_result (header : Bool) (s : State) :
    (encEffect header s).result = BitVec.ofNat 32 (encSize header s) := rfl
@[simp] theorem encEffect_fault (header : Bool) (s : State) : (encEffect header s).fault = s.fault := rfl
@[simp] theorem encEffect_params (header : Bool) (s : State) :
    (encEffect header s).params = s.params := rfl
@[simp] theorem encEffect_pending (header : Bool) (s : State) :
    (encEffect header s).pending = s.pending := rfl
@[simp] theorem encEffect_windowReads (header : Bool) (s : State) :
    (encEffect header s).windowReads = s.windowReads := rfl
@[simp] theorem encEffect_memReads (header : Bool) (s : State) :
    (encEffect header s).memReads = s.memReads := rfl

/-- ENC changes no byte outside the bytes it writes. -/
theorem encEffect_mem_other (header : Bool) (s : State) (x : Nat)
    (h : ¬ InRange s.dst.toNat (encSize header s) x) :
    memRead (encEffect header s).mem x = memRead s.mem x := by
  simp only [InRange, encSize] at h
  refine (encLoop_other _ _ _ _ _ _ x ?_).trans (encHeader_other header _ _ _ x (by
    simp only [bufferArgs_dst]; omega))
  simp only [encPairs_bufferArgs, bufferArgs_dst, headerLen_eq]
  omega

theorem encEffect_wf (header : Bool) (s : State) (hm : s.mem.wf)
    (h : encSize header s = 0 ∨ s.dst.toNat + encSize header s ≤ Config.addressSpace) :
    (encEffect header s).mem.wf := by
  have hd : s.dst.toNat < Config.addressSpace := s.dst.isLt
  simp only [encSize] at h
  refine encLoop_wf _ _ _ _ _ _ (encHeader_wf header _ _ _ hm ?_) ?_
  · simp only [bufferArgs_dst]; omega
  · simp only [encPairs_bufferArgs, bufferArgs_dst, headerLen_eq]; omega

/-- The samples ENC reads are those before the command: the header write does not reach them. -/
theorem samplesAt_encHeader (header : Bool) (s : State) (h : EncApart header s) :
    samplesAt (encHeader header s.codec s.dst.toNat s.mem) s.src.toNat (2 * (s.len.toNat / 2)) =
      samplesAt s.mem s.src.toNat (2 * (s.len.toNat / 2)) :=
  samplesAt_congr _ _ _ _ fun a h1 h2 => encHeader_other header _ _ _ a (by
    simp only [EncApart, RangesApart, encSize] at h
    omega)

theorem encApart_payload (header : Bool) (s : State) (h : EncApart header s) :
    RangesApart s.src.toNat (4 * (s.len.toNat / 2)) (s.dst.toNat + headerSize header)
      (s.len.toNat / 2) := by
  simp only [EncApart, RangesApart, encSize] at h ⊢
  omega

/-- The Codec State ENC leaves (R96). -/
theorem encEffect_codec (header : Bool) (s : State) (h : EncApart header s) :
    (encEffect header s).codec = (encodeList s.params.tables s.codec
      (samplesAt s.mem s.src.toNat (2 * (s.len.toNat / 2)))).2 := by
  rw [← samplesAt_encHeader header s h]
  exact encLoop_codec _ _ _ _ _ _ (encApart_payload header s h)

/-- The payload bytes ENC leaves (R97). -/
theorem encEffect_payload (header : Bool) (s : State) (h : EncApart header s) (hm : s.mem.wf)
    (ha : s.dst.toNat + encSize header s ≤ Config.addressSpace) (k : Nat) (hk : k < s.len.toNat / 2) :
    memRead (encEffect header s).mem (s.dst.toNat + headerSize header + k) =
      packNibbles
        ((encodeList s.params.tables s.codec
          (samplesAt s.mem s.src.toNat (2 * (s.len.toNat / 2)))).1.getD (2 * k) 0)
        ((encodeList s.params.tables s.codec
          (samplesAt s.mem s.src.toNat (2 * (s.len.toNat / 2)))).1.getD (2 * k + 1) 0) := by
  rw [← samplesAt_encHeader header s h]
  simp only [encSize] at ha
  exact encLoop_payload _ _ _ _ _ _ k
    (encHeader_wf header _ _ _ hm (by simp only [bufferArgs_dst]; omega)) (by
    simp only [encPairs_bufferArgs, bufferArgs_dst, headerLen_eq]; omega)
    (encApart_payload header s h) hk

/-- The header bytes ENC.H leaves (R100, R101): of the Codec State before the command. -/
theorem encEffect_header (s : State) (hm : s.mem.wf)
    (ha : s.dst.toNat + encSize true s ≤ Config.addressSpace) (i : Nat) (hi : i < 4) :
    memRead (encEffect true s).mem (s.dst.toNat + i) = (headerBytes s.codec)[i] := by
  have h4 : headerSize true = 4 := rfl
  simp only [encSize] at ha
  refine (encLoop_other _ _ _ _ _ _ _ ?_).trans
    (encHeader_bytes s.codec s.dst.toNat s.mem hm (by omega) i hi)
  simp only [encPairs_bufferArgs, bufferArgs_dst, headerLen_eq]
  omega

/-! ### The effect of DEC -/

@[simp] theorem decEffect_src (header : Bool) (s : State) : (decEffect header s).src = s.src := rfl
@[simp] theorem decEffect_dst (header : Bool) (s : State) : (decEffect header s).dst = s.dst := rfl
@[simp] theorem decEffect_len (header : Bool) (s : State) : (decEffect header s).len = s.len := rfl
@[simp] theorem decEffect_dstcap (header : Bool) (s : State) :
    (decEffect header s).dstcap = s.dstcap := rfl
@[simp] theorem decEffect_result (header : Bool) (s : State) :
    (decEffect header s).result = BitVec.ofNat 32 (2 * s.len.toNat) := rfl
@[simp] theorem decEffect_fault (header : Bool) (s : State) : (decEffect header s).fault = s.fault := rfl
@[simp] theorem decEffect_params (header : Bool) (s : State) :
    (decEffect header s).params = s.params := rfl
@[simp] theorem decEffect_pending (header : Bool) (s : State) :
    (decEffect header s).pending = s.pending := rfl
@[simp] theorem decEffect_windowReads (header : Bool) (s : State) :
    (decEffect header s).windowReads = s.windowReads := rfl
@[simp] theorem decEffect_memReads (header : Bool) (s : State) :
    (decEffect header s).memReads = s.memReads := rfl

/-- DEC changes no byte outside the bytes it writes. -/
theorem decEffect_mem_other (header : Bool) (s : State) (x : Nat)
    (h : ¬ InRange s.dst.toNat (decSize s) x) :
    memRead (decEffect header s).mem x = memRead s.mem x :=
  decLoop_other _ _ _ _ _ _ x h

theorem decEffect_wf (header : Bool) (s : State) (hm : s.mem.wf)
    (h : decSize s = 0 ∨ s.dst.toNat + decSize s ≤ Config.addressSpace) :
    (decEffect header s).mem.wf := by
  have hd : s.dst.toNat < Config.addressSpace := s.dst.isLt
  simp only [decSize] at h
  exact decLoop_wf _ _ _ _ _ _ hm (by simp only [bufferArgs_len, bufferArgs_dst]; omega)

theorem decApart_payload (header : Bool) (s : State) (h : DecApart header s) :
    RangesApart (s.src.toNat + headerSize header) s.len.toNat s.dst.toNat (4 * s.len.toNat) := by
  simp only [DecApart, RangesApart, decSize] at h ⊢
  omega

/-- The Codec State DEC leaves (R104, R106). -/
theorem decEffect_codec (header : Bool) (s : State) (h : DecApart header s) :
    (decEffect header s).codec = (decodeList s.params.tables
      (decHeader header s.codec s.src.toNat s.mem)
      (codesOf (bytesAt s.mem (s.src.toNat + headerSize header) s.len.toNat))).2 :=
  decLoop_codec _ _ _ _ _ _ (decApart_payload header s h)

/-- The samples DEC leaves (R107). -/
theorem decEffect_samples (header : Bool) (s : State) (h : DecApart header s) (hm : s.mem.wf)
    (ha : s.dst.toNat + decSize s ≤ Config.addressSpace) (i : Nat) (hi : i < 2 * s.len.toNat) :
    memRead16 (decEffect header s).mem (s.dst.toNat + 2 * i) =
      (decodeList s.params.tables (decHeader header s.codec s.src.toNat s.mem)
        (codesOf (bytesAt s.mem (s.src.toNat + headerSize header) s.len.toNat))).1.getD i 0 :=
  decLoop_samples _ _ _ _ _ _ i hm ha (decApart_payload header s h) hi

/-! ### What a command can do -/

theorem execReset_next (s t : State) (h : execReset s = .next t) :
    (halted s = true ∧ t = s) ∨ (halted s = false ∧ t = setCodec s Codec.reset) :=
  unlessHalted_next s _ t h

theorem execEncstep_next (x : Sample) (s t : State) (h : execEncstep x s = .next t) :
    (halted s = true ∧ t = s) ∨ (halted s = false ∧
      t = setResult (setCodec s (encodeStep s.params.tables s.codec x).2)
        ((encodeStep s.params.tables s.codec x).1.setWidth 32)) :=
  unlessHalted_next s _ t h

theorem execDecstep_next (code : Code) (s t : State) (h : execDecstep code s = .next t) :
    (halted s = true ∧ t = s) ∨ (halted s = false ∧
      t = setResult (setCodec s (decodeStep s.params.tables s.codec code).2)
        (bits32 (decodeStep s.params.tables s.codec code).1)) :=
  unlessHalted_next s _ t h

/-- All that ENC can do: nothing while halted, its effect when ready, a fault and nothing else. -/
theorem execEnc_next (header : Bool) (s t : State) (h : execEnc header s = .next t) :
    (halted s = true ∧ t = s) ∨ (halted s = false ∧ EncReady header s ∧ t = encEffect header s) ∨
    (halted s = false ∧ encFault header s ≠ .clear ∧ t = raiseFault s (encFault header s)) := by
  rcases unlessHalted_next s _ t h with h | ⟨hh, rfl⟩
  · exact .inl h
  · refine .inr ?_
    rcases encFault_cases header s with ⟨-, h⟩ | ⟨-, -, h⟩ | ⟨-, -, -, h⟩ | ⟨hr, h⟩
    · exact .inr ⟨hh, by simp [h], checked_fault _ _ _ (by simp [h])⟩
    · exact .inr ⟨hh, by simp [h], checked_fault _ _ _ (by simp [h])⟩
    · exact .inr ⟨hh, by simp [h], checked_fault _ _ _ (by simp [h])⟩
    · exact .inl ⟨hh, hr, checked_clear _ _ _ h⟩

/-- All that DEC can do: nothing while halted, its effect when ready, a fault and nothing else. -/
theorem execDec_next (header : Bool) (s t : State) (h : execDec header s = .next t) :
    (halted s = true ∧ t = s) ∨ (halted s = false ∧ DecReady header s ∧ t = decEffect header s) ∨
    (halted s = false ∧ decFault header s ≠ .clear ∧ t = raiseFault s (decFault header s)) := by
  rcases unlessHalted_next s _ t h with h | ⟨hh, rfl⟩
  · exact .inl h
  · refine .inr ?_
    rcases decFault_cases header s with ⟨-, h⟩ | ⟨-, -, h⟩ | ⟨-, -, -, h⟩ | ⟨-, -, -, -, h⟩ | ⟨hr, h⟩
    · exact .inr ⟨hh, by simp [h], checked_fault _ _ _ (by simp [h])⟩
    · exact .inr ⟨hh, by simp [h], checked_fault _ _ _ (by simp [h])⟩
    · exact .inr ⟨hh, by simp [h], checked_fault _ _ _ (by simp [h])⟩
    · exact .inr ⟨hh, by simp [h], checked_fault _ _ _ (by simp [h])⟩
    · exact .inl ⟨hh, hr, checked_clear _ _ _ h⟩

theorem execEnc_ready (header : Bool) (s : State) (hh : halted s = false) (hr : EncReady header s) :
    execEnc header s = .next (encEffect header s) := by
  obtain ⟨t, ht⟩ := unlessHalted_answers s (checked s (encFault header s) (encEffect header s))
  rcases execEnc_next header s t ht with ⟨h, -⟩ | ⟨-, -, rfl⟩ | ⟨-, hf, -⟩
  · exact absurd h (by simp [hh])
  · exact ht
  · obtain ⟨h1, h2, h3⟩ := hr
    rcases encFault_cases header s with ⟨h, -⟩ | ⟨-, h, -⟩ | ⟨-, -, h, -⟩ | ⟨-, h⟩
    · omega
    · exact absurd h2 h
    · exact absurd h3 h
    · exact absurd h hf

theorem execDec_ready (header : Bool) (s : State) (hh : halted s = false) (hr : DecReady header s) :
    execDec header s = .next (decEffect header s) := by
  obtain ⟨t, ht⟩ := unlessHalted_answers s (checked s (decFault header s) (decEffect header s))
  rcases execDec_next header s t ht with ⟨h, -⟩ | ⟨-, -, rfl⟩ | ⟨-, hf, -⟩
  · exact absurd h (by simp [hh])
  · exact ht
  · obtain ⟨h1, h2, h3, h4⟩ := hr
    rcases decFault_cases header s with ⟨h, -⟩ | ⟨-, h, -⟩ | ⟨-, -, h, -⟩ | ⟨-, -, -, h, -⟩ | ⟨-, h⟩
    · omega
    · exact absurd h2 h
    · exact absurd h3 h
    · exact absurd h4 h
    · exact absurd h hf

end Sys2Proof.Machine
end

