-- ==== Sys2Proof/Laws/Bus.lean ====
section
/-!
SUPPORT. The window's addresses (R27, R36), and what a CMD write and a step can do (R58): the inversion
lemmas that every statement about steps cites.
-/

namespace Sys2Proof.Machine

open Sys2Proof.Safety

theorem mem_windowRegs (r : WReg) : r ∈ windowRegs := by cases r <;> simp [windowRegs]

theorem windowOffset_injective (r r' : WReg) (h : windowOffset r = windowOffset r') : r = r' := by
  cases r <;> cases r' <;> first | rfl | (exact absurd h (by decide))

/-- A word access at a register's address reaches that register (R27). -/
@[simp] theorem windowRegAt_word (p : Params) (r : WReg) :
    windowRegAt p (p.regBase + windowOffset r) .word = some r := by
  simp only [windowRegAt]
  cases h : windowRegs.find? fun r' => p.regBase + windowOffset r' == p.regBase + windowOffset r with
  | none =>
    have := List.find?_eq_none.mp h r (mem_windowRegs r)
    simp at this
  | some r' =>
    have := List.find?_some h
    simp only [beq_iff_eq, Nat.add_left_cancel_iff] at this
    rw [windowOffset_injective r' r this]

/-- The register an access reaches: it is a word access at that register's address (R36). -/
theorem windowRegAt_some (p : Params) (addr : Nat) (size : AccessSize) (r : WReg)
    (h : windowRegAt p addr size = some r) : size = .word ∧ addr = p.regBase + windowOffset r := by
  cases size with
  | byte => cases h
  | half => cases h
  | word =>
    have := List.find?_some h
    simp only [beq_iff_eq] at this
    exact ⟨rfl, this.symm⟩

/-- An access that is no word access, or is at no register's address, reaches nothing (R36). -/
theorem windowRegAt_none (p : Params) (addr : Nat) (size : AccessSize)
    (h : size ≠ .word ∨ ∀ r, addr ≠ p.regBase + windowOffset r) : windowRegAt p addr size = none := by
  cases hr : windowRegAt p addr size with
  | none => rfl
  | some r =>
    obtain ⟨h1, h2⟩ := windowRegAt_some p addr size r hr
    rcases h with h | h
    · exact absurd h1 h
    · exact absurd h2 (h r)

/-! ### A CMD write -/

theorem cmdWrite_command (s : State) (w : Word) (i : Instr) (h : decode w = .command i) :
    cmdWrite s w = exec i s := by
  unfold cmdWrite
  rw [h]

theorem cmdWrite_illegal (s : State) (w : Word) (why : IllegalReason) (h : decode w = .illegal why) :
    cmdWrite s w = unlessHalted s (raiseFault s .illegal) := by
  unfold cmdWrite
  rw [h]

/-- A halted block discards every command (R121). -/
theorem exec_halted (i : Instr) (s : State) (h : halted s = true) : exec i s = .next s := by
  cases i <;> exact unlessHalted_halted s _ h

/-- All that a CMD write can do: nothing while halted, a command, or the fault ILLEGAL (R28, R70). -/
theorem cmdWrite_next (s t : State) (w : Word) (h : cmdWrite s w = .next t) :
    (halted s = true ∧ t = s) ∨
    (halted s = false ∧ ∃ i, decode w = .command i ∧ exec i s = .next t) ∨
    (halted s = false ∧ (∃ why, decode w = .illegal why) ∧ t = raiseFault s .illegal) := by
  cases hd : decode w with
  | command i =>
    rw [cmdWrite_command s w i hd] at h
    cases hh : halted s with
    | true => rw [exec_halted i s hh] at h; cases h; exact .inl ⟨rfl, rfl⟩
    | false => exact .inr (.inl ⟨rfl, i, rfl, h⟩)
  | illegal why =>
    rw [cmdWrite_illegal s w why hd] at h
    rcases unlessHalted_next s _ t h with h | ⟨hh, rfl⟩
    · exact .inl h
    · exact .inr (.inr ⟨hh, ⟨why, rfl⟩, rfl⟩)

/-! ### A step -/

/-- A write to SRC, DST, LEN or DSTCAP, or an ignored one, as one lemma (R36, R37). -/
theorem windowWrite_argument (s : State) (w : Word) (r : WReg) (h : r ≠ .cmd) :
    windowWrite s w r = .next (writeWindow s w r) := by
  cases r <;> first | rfl | exact absurd rfl h

/-- All that a step can do when it answers a next state (R58, R130). -/
theorem step_next (s t : State) (h : step s = .next t) :
    (s.pending = [] ∧ t = s) ∨
    (∃ w rest, s.pending = .windowWrite (s.params.regBase + windowOffset .cmd) .word w :: rest ∧
      cmdWrite (setPending s rest) w = .next t) ∨
    (∃ r w rest, s.pending = .windowWrite (s.params.regBase + windowOffset r) .word w :: rest ∧
      r ≠ .cmd ∧ t = writeWindow (setPending s rest) w r) ∨
    (∃ r rest, s.pending = .windowRead (s.params.regBase + windowOffset r) .word :: rest ∧
      t = logWindowRead (setPending s rest) (readWindow (setPending s rest) r)) ∨
    (∃ a b rest, s.pending = .memWrite a b :: rest ∧
      t = setMem (setPending s rest) (memWrite s.mem a.toNat b)) ∨
    (∃ a rest, s.pending = .memRead a :: rest ∧
      t = logMemRead (setPending s rest) (memRead s.mem a.toNat)) ∨
    (∃ rest, s.pending = .hardReset :: rest ∧ t = hardReset (setPending s rest)) := by
  unfold step nextAction at h
  cases hp : s.pending with
  | nil => rw [hp] at h; cases h; exact .inl ⟨rfl, rfl⟩
  | cons a rest =>
    rw [hp] at h
    refine .inr ?_
    cases a with
    | windowWrite addr size w =>
      simp only [hostAction, setPending_params] at h
      cases hr : windowRegAt s.params addr size with
      | none => rw [hr] at h; cases h
      | some r =>
        rw [hr] at h
        obtain ⟨rfl, rfl⟩ := windowRegAt_some _ _ _ _ hr
        by_cases hc : r = .cmd
        · subst hc
          exact .inl ⟨w, rest, rfl, h⟩
        · simp only [windowWrite_argument _ _ _ hc] at h
          cases h
          exact .inr (.inl ⟨r, w, rest, rfl, hc, rfl⟩)
    | windowRead addr size =>
      simp only [hostAction, setPending_params] at h
      cases hr : windowRegAt s.params addr size with
      | none => rw [hr] at h; cases h
      | some r =>
        rw [hr] at h
        obtain ⟨rfl, rfl⟩ := windowRegAt_some _ _ _ _ hr
        cases h
        exact .inr (.inr (.inl ⟨r, rest, rfl, rfl⟩))
    | memWrite a b =>
      cases h
      exact .inr (.inr (.inr (.inl ⟨a, b, rest, rfl, rfl⟩)))
    | memRead a =>
      cases h
      exact .inr (.inr (.inr (.inr (.inl ⟨a, rest, rfl, rfl⟩))))
    | hardReset =>
      cases h
      exact .inr (.inr (.inr (.inr (.inr ⟨rest, rfl, rfl⟩))))

/-- A step whose next action is a word write to a register performs that write (R28, R58). -/
theorem step_windowWrite (s : State) (r : WReg) (w : Word) (rest : List HostAction)
    (h : s.pending = .windowWrite (s.params.regBase + windowOffset r) .word w :: rest) :
    step s = windowWrite (setPending s rest) w r := by
  unfold step nextAction
  rw [h]
  simp only [hostAction, setPending_params, windowRegAt_word]

/-- What a register reads does not depend on the host's actions to come (R28 to R35). -/
@[simp] theorem readWindow_setPending (s : State) (as : List HostAction) (r : WReg) :
    readWindow (setPending s as) r = readWindow s r := by cases r <;> rfl

/-- A step whose next action is a word read of a register records what it reads (R36, R58). -/
theorem step_windowRead (s : State) (r : WReg) (rest : List HostAction)
    (h : s.pending = .windowRead (s.params.regBase + windowOffset r) .word :: rest) :
    step s = .next (logWindowRead (setPending s rest) (readWindow s r)) := by
  unfold step nextAction
  rw [h]
  simp only [hostAction, setPending_params, windowRegAt_word, readWindow_setPending]

end Sys2Proof.Machine
end

