-- ==== Sys2Proof/Laws/PerInstr.lean ====
section
/-!
SUPPORT. A statement about every command as syntax, one lemma per constructor: the word the encoder gives
a command is a legal command word by the conditions of R70, and the command's operands are in range.
-/

namespace Sys2Proof

theorem toNat_append_add (v w : Nat) (x : BitVec v) (y : BitVec w) :
    (x ++ y).toNat = x.toNat * 2 ^ w + y.toNat := by
  rw [BitVec.toNat_append, ← Nat.shiftLeft_add_eq_or_of_lt y.isLt, Nat.shiftLeft_eq]

/-- A packed word as a number: its fields at their places (R62). -/
theorem packWord_toNat (op : BitVec 4) (h : Bool) (data : BitVec 16) :
    (packWord op h data).toNat = op.toNat * 2 ^ 28 + h.toNat * 2 ^ 27 + data.toNat := by
  unfold packWord
  rw [toNat_append_add, toNat_append_add, toNat_append_add, BitVec.toNat_ofBool]
  simp only [BitVec.toNat_ofNat]
  omega

end Sys2Proof

namespace Sys2Proof.Laws.EncodingLegal

/-- The encoder writes legal words only (R64 to R68, R70), and a command's operands are in range (R71). -/
def Statement (i : Instr) : Prop := legalWord (encode i) = true ∧ i.wellFormed = true

/-- Legality of a packed word, field by field (R70). -/
theorem legal_packWord (op : BitVec 4) (h : Bool) (data : BitVec 16) (hop : 1 ≤ op.toNat ∧ op.toNat ≤ 5)
    (hh : op.toNat ≤ 3 → h = false) (hd : op.toNat = 1 ∨ 4 ≤ op.toNat → data = 0) :
    legalWord (packWord op h data) = true := by
  have hb := h.toNat_lt
  have hl := data.isLt
  have h0 : op.toNat ≤ 3 → h.toNat = 0 := fun e => by rw [hh e]; rfl
  have d0 : op.toNat = 1 ∨ 4 ≤ op.toNat → data.toNat = 0 := fun e => by rw [hd e]; rfl
  simp only [legalWord, illegalOp, illegalRsv, illegalH, illegalData, packWord_toNat, Bool.and_eq_true,
    Bool.not_eq_true', Bool.or_eq_false_iff, Bool.and_eq_false_iff, decide_eq_false_iff_not]
  omega

theorem reset : Statement .reset := ⟨by decide, rfl⟩

theorem encstep (sample : Sample) : Statement (.encstep sample) := by
  refine ⟨legal_packWord _ _ _ (by decide) (fun _ => rfl) (by simp), ?_⟩
  have h1 := BitVec.le_toInt sample
  have h2 := BitVec.toInt_lt (x := sample)
  simp only [Instr.wellFormed, Bool.and_eq_true, decide_eq_true_eq]
  omega

theorem decstep (code : Code) : Statement (.decstep code) := by
  refine ⟨legal_packWord _ _ _ (by decide) (fun _ => rfl) (by simp), ?_⟩
  have h := code.isLt
  simp only [Instr.wellFormed, decide_eq_true_eq]
  omega

theorem enc (header : Bool) : Statement (.enc header) :=
  ⟨legal_packWord _ _ _ (by decide) (by simp) (fun _ => rfl), rfl⟩

theorem dec (header : Bool) : Statement (.dec header) :=
  ⟨legal_packWord _ _ _ (by decide) (by simp) (fun _ => rfl), rfl⟩

end Sys2Proof.Laws.EncodingLegal
end

