-- ==== Sys2Proof/Tests/Slice0.lean ====
section
/-!
SUPPORT. Tests of the model against the spec's worked vectors (95_test_vectors.md) and encodings
(30_encoding.md), the smoke test of the legality checks, and a witness for the hypotheses of each
statement.
-/

namespace Sys2Proof.Tests

open Sys2Proof.Machine Sys2Proof.Safety

/-! ### Helpers -/

/-- The next state of an outcome. -/
def nextOf : Host.Outcome State Fault Refusal → Option State
  | .next t => some t
  | .fault _ => none
  | .refused _ => none

/-- A reset block with the Codec State (i, l). -/
def at' (i : Nat) (l : Int) : State :=
  { State.reset with codec := { stepIdx := BitVec.ofNat 7 i, lastSample := BitVec.ofInt 16 l } }

/-- A state with buffer operands and memory. -/
def buf (s : State) (src dst len cap : Nat) (m : Memory) : State :=
  { s with
    src := BitVec.ofNat 32 src
    dst := BitVec.ofNat 32 dst
    len := BitVec.ofNat 32 len
    dstcap := BitVec.ofNat 32 cap
    mem := m }

/-- (STEP_IDX, LAST_SAMPLE, RESULT, STATUS) of the next state. -/
def regsOf (o : Host.Outcome State Fault Refusal) : Option (Nat × Int × Nat × Nat) :=
  (nextOf o).map fun t =>
    (t.codec.stepIdx.toNat, t.codec.lastSample.toInt, t.result.toNat, (statusWord t.fault).toNat)

/-- The bytes at `a` of the next state. -/
def bytesOf (o : Host.Outcome State Fault Refusal) (a n : Nat) : Option (List Nat) :=
  (nextOf o).map fun t => (bytesAt t.mem a n).map BitVec.toNat

/-- A halted block with FCODE 5 (2.3 of 95_test_vectors.md). -/
def haltedAt : State := { at' 8 13 with fault := .hdrstep }

/-- A platform with 16 readable bytes at 0 and 16 writable bytes at 0x100. -/
def smallPlatform (s : State) : State :=
  { s with
    params :=
      { defaultParams with
        readable := [{ base := 0, size := 16 }]
        writable := [{ base := 0x100, size := 16 }] } }

/-- `s` with one host action to come, then `rest`. -/
def withAction (s : State) (a : HostAction) (rest : List HostAction) : State :=
  { s with pending := a :: rest }

/-! ### Decoding: words written out from 30_encoding.md R64 to R68 and R77 -/

theorem test_decode_reset : decode 0b00010000000000000000000000000000#32 = .command .reset := by decide
theorem test_decode_encstep :
    decode 0b00100000000000001000000000000001#32 = .command (.encstep 0x8001#16) := by decide
theorem test_decode_decstep_ignores_bits :
    decode 0b00110000000000001111111111110111#32 = .command (.decstep 7#4) := by decide
theorem test_decode_enc : decode 0b01000000000000000000000000000000#32 = .command (.enc false) := by decide
theorem test_decode_enc_h : decode 0b01001000000000000000000000000000#32 = .command (.enc true) := by decide
theorem test_decode_dec : decode 0b01010000000000000000000000000000#32 = .command (.dec false) := by decide
theorem test_decode_dec_h : decode 0b01011000000000000000000000000000#32 = .command (.dec true) := by decide

theorem test_encode_examples :
    encode (.encstep (BitVec.ofInt 16 (-32768))) = 0x20008000#32 ∧
    encode (.encstep (BitVec.ofInt 16 1000)) = 0x200003E8#32 ∧
    encode (.decstep 15#4) = 0x3000000F#32 ∧ encode (.enc true) = 0x48000000#32 ∧
    encode (.dec true) = 0x58000000#32 ∧ encode .reset = 0x10000000#32 := by decide

theorem test_decodeTableWord :
    decodeTableWord 32 0x20000005 = some (.encstep 5) ∧ decodeTableWord 32 0x60000000 = none := by decide

/-- R77 and R74: the disassembler shows the ignored bits. -/
theorem test_disassemble :
    disassemble 0x3000FFF7 = .ignoredBits (.decstep 7) 0xFFF#12 ∧
    disassemble 0x2000FFFF = .command (.encstep (-1)) ∧
    disassemble 0x18000000 = .word 0x18000000#32 := by decide

/-- R74 to R76: lines of text as host actions. -/
theorem test_assembleLine :
    assembleLine defaultParams ['E', 'N', 'C', 'S', 'T', 'E', 'P', ' ', '-', '1', ' ', ';', 'x'] =
      some [.windowWrite 0 .word 0x2000FFFF] ∧
    assembleLine defaultParams ['W', 'R', ' ', 'L', 'E', 'N', ',', ' ', '0', 'x', '1', 'f'] =
      some [.windowWrite 12 .word 0x1F] ∧
    assembleLine defaultParams ['D', 'E', 'C', 'S', 'T', 'E', 'P', ' ', '1', '6'] = none := by decide

/-! ### Well-formedness: an illegal word for each check of R70, and legal ones -/

theorem test_illegalOp : illegalOp 0x00000000 = true ∧ legalWord 0x00000000 = false ∧
    illegalOp 0x60000000 = true ∧ legalWord 0x60000000 = false := by decide
theorem test_illegalRsv : illegalRsv 0x20010000 = true ∧ legalWord 0x20010000 = false := by decide
theorem test_illegalH : illegalH 0x38000000 = true ∧ legalWord 0x38000000 = false := by decide
theorem test_illegalData : illegalData 0x40000001 = true ∧ legalWord 0x40000001 = false := by decide
theorem test_legal : legalWord 0x10000000 = true ∧ legalWord 0x2000FFFF = true ∧
    legalWord 0x3000FFF7 = true ∧ legalWord 0x48000000 = true ∧ legalWord 0x58000000 = true := by decide
theorem test_asm_out_of_range : asmInRange (.encstep 32768) = false ∧ asmInRange (.encstepHex 0x10000) = false ∧
    asmInRange (.decstep 16) = false := by decide

/-! ### The commands (95_test_vectors.md 2.1 to 2.5) -/

theorem test_reset_command :
    regsOf (exec .reset { at' 40 (-1234) with result := 7 }) = some (0, 0, 7, 0) := by decide
theorem test_reset_discarded_when_halted : regsOf (exec .reset haltedAt) = some (8, 13, 0, 0x51) := by decide

theorem test_encstep_negative :
    regsOf (exec (.encstep (BitVec.ofInt 16 (-2000))) (at' 44 (-1234))) = some (50, -2036, 14, 0) := by decide
theorem test_encstep_largest_difference :
    regsOf (exec (.encstep 32767) (at' 88 (-32768))) = some (88, 28670, 7, 0) := by decide

theorem test_decstep_negates_after_shift :
    regsOf (exec (.decstep 12) (at' 3 (-5))) = some (5, -16, 0xFFFFFFF0, 0) := by decide
theorem test_decstep_saturates :
    regsOf (exec (.decstep 6) (at' 87 30000)) = some (88, 32767, 32767, 0) := by decide

/-- Samples 100, 200, -300, 400, 32767 at 0x1000 (P2 of 95_test_vectors.md). -/
def p2Mem : Memory :=
  [(0x1000, 0x64), (0x1002, 0xC8), (0x1004, 0xD4), (0x1005, 0xFE), (0x1006, 0x90), (0x1007, 0x01),
    (0x1008, 0xFF), (0x1009, 0x7F)]

/-- P2: ENC.H of five samples from (8, 13). -/
theorem test_enc_header_odd_length :
    regsOf (exec (.enc true) (buf (at' 8 13) 0x1000 0x2000 5 16 p2Mem)) = some (40, 264, 6, 0) ∧
    bytesOf (exec (.enc true) (buf (at' 8 13) 0x1000 0x2000 5 16 p2Mem)) 0x2000 7 =
      some [0x00, 0x0D, 0x08, 0x00, 0x77, 0xF7, 0x00] := by decide
/-- STATUS of each fault of ENC (R113 to R119): too small a DSTCAP, a source that wraps, a source byte that
is not readable (2.5 of 95_test_vectors.md), a shared byte. -/
theorem test_enc_faults :
    regsOf (exec (.enc false) (buf State.reset 0 0x100 4 1 [])) = some (0, 0, 0, 0x21) ∧
    regsOf (exec (.enc false) (buf State.reset 0xFFFFFFFE 0x100 2 8 [])) = some (0, 0, 0, 0x31) ∧
    regsOf (exec (.enc false) (smallPlatform (buf State.reset 0x0C 0x100 4 8 []))) = some (0, 0, 0, 0x31) ∧
    regsOf (exec (.enc false) (buf State.reset 0 7 4 2 [])) = some (0, 0, 0, 0x41) := by decide

/-- P3: DEC.H of what P2 wrote. -/
theorem test_dec_header :
    regsOf (exec (.dec true) (buf State.reset 0x2000 0x3000 2 8
      [(0x2001, 0x0D), (0x2002, 0x08), (0x2004, 0x77), (0x2005, 0xF7)])) = some (40, 264, 4, 0) ∧
    bytesOf (exec (.dec true) (buf State.reset 0x2000 0x3000 2 8
      [(0x2001, 0x0D), (0x2002, 0x08), (0x2004, 0x77), (0x2005, 0xF7)])) 0x3000 8 =
      some [0x2B, 0x00, 0x6A, 0x00, 0xE2, 0xFF, 0x08, 0x01] := by decide
/-- P4: header byte 2 is 89. -/
theorem test_dec_hdrstep :
    regsOf (exec (.dec true) (buf (at' 8 13) 0x4000 0 0 0 [(0x4000, 0x12), (0x4001, 0x34), (0x4002, 89)])) =
      some (8, 13, 0, 0x51) := by decide

/-- The default table's ends and length (R20). -/
theorem test_step_size_table : stepSizeEntries.length = 89 ∧ stepSizeTable[0] = 7 ∧
    stepSizeTable[44] = 494 ∧ stepSizeTable[88] = 32767 := by decide

/-- The very next step after reset runs the command placed there. -/
theorem test_withFetchWord :
    regsOf (step (State.reset.withFetchWord 32 0x30000007)) = some (8, 13, 13, 0) ∧
    regsOf (step (State.reset.withFetchWord 32 0x60000000)) = some (0, 0, 0, 0x11) := by decide

/-! ### Witnesses: states and operands that meet the hypotheses of the statements -/

/-- `DecodeAndEncodeAgree`: a word of each clause. -/
theorem witness_decode_command :
    decode 0x3000FFF7 = .command (.decstep 7) ∧ decode 0x2000FFF7 = .command (.encstep 0xFFF7) := by decide

/-- `IllegalWordsFault`: a word of each of R70's conditions, on a block that is not halted. -/
theorem witness_illegal_word : halted State.reset = false ∧ legalWord 0x0FFFFFFF = false ∧
    legalWord 0x27FF0000 = false ∧ legalWord 0x18000000 = false ∧ legalWord 0x5000FFFF = false := by decide

/-- `AssemblerTakesOperandsInRange`: the ends of each range. -/
theorem witness_operand_ranges :
    asmInRange (.encstep (-32768)) = true ∧ asmInRange (.encstep 32767) = true ∧
    asmInRange (.encstep (-32769)) = false ∧ asmInRange (.encstepHex 0xFFFF) = true ∧
    asmInRange (.decstep 15) = true := by decide

/-- `HardwareResetAction`: reset, then a CMD write of RESET. -/
theorem witness_hardReset :
    (withAction haltedAt .hardReset [.windowWrite haltedAt.params.regBase .word 0x10000000]).pending =
      .hardReset :: [.windowWrite haltedAt.params.regBase .word 0x10000000] ∧
    decode 0x10000000 = .command .reset := by decide

/-- `StepRunsTheDecodedCommand`: a legal word, and an illegal one on a block that is halted and on one that
is not. -/
theorem witness_cmdWrite :
    (withAction haltedAt (.windowWrite haltedAt.params.regBase .word 0x20008000) []).pending =
      .windowWrite haltedAt.params.regBase .word 0x20008000 :: [] ∧
    (withAction haltedAt (.windowWrite haltedAt.params.regBase .word 0x60000000) []).pending =
      .windowWrite haltedAt.params.regBase .word 0x60000000 :: [] ∧
    (withAction (at' 8 13) (.windowWrite (at' 8 13).params.regBase .word 0x60000000) []).pending =
      .windowWrite (at' 8 13).params.regBase .word 0x60000000 :: [] ∧
    decode 0x20008000 = .command (.encstep 0x8000) ∧ legalWord 0x60000000 = false ∧
    halted haltedAt = true ∧ halted (at' 8 13) = false := by decide

/-- `ResetCommandWritesOnlyCodecState`: both clauses. -/
theorem witness_halted_and_not : halted (at' 40 (-1234)) = false ∧ halted haltedAt = true := by decide

/-- `DecstepReconstructs`, `EncstepQuantizes`, `IntermediateValuesStayInRange`: both ends of the index. -/
theorem witness_step_index : (at' 0 0).codec.stepIdx.toNat < 89 ∧ halted (at' 0 0) = false ∧
    (at' 88 (-32768)).codec.stepIdx.toNat = 88 ∧ halted (at' 88 (-32768)) = false := by decide

/-- `EncodeAndDecodeStepsTrackEachOther`. -/
theorem witness_not_halted : halted (at' 127 32767) = false := by decide

/-- `StepCommandsDependOnlyOnCodecState`: two different states that agree on the Codec State. -/
theorem witness_same_codec :
    (at' 8 13).codec = (buf (at' 8 13) 1 2 3 4 [(5, 6)]).codec ∧
    (at' 8 13).params.tables = (buf (at' 8 13) 1 2 3 4 [(5, 6)]).params.tables ∧
    halted (at' 8 13) = false ∧ halted (buf (at' 8 13) 1 2 3 4 [(5, 6)]) = false ∧
    at' 8 13 ≠ buf (at' 8 13) 1 2 3 4 [(5, 6)] := by decide

/-- `StepsAgreeWith32BitArithmetic`. -/
theorem witness_small_adjustments :
    ∀ k : Fin 8, -1024 ≤ defaultTables.stepAdjust[k] ∧ defaultTables.stepAdjust[k] ≤ 1024 := by decide

/-- `EncWritesThePackedCodes`, `EncReadsOnlyConsumedSamples`: with and without header, the destination just
large enough and just behind the source. -/
theorem witness_encReady :
    halted (buf (at' 8 13) 0x1000 0x1008 5 6 p2Mem) = false ∧
    (buf (at' 8 13) 0x1000 0x1008 5 6 p2Mem).mem.wf ∧
    EncReady true (buf (at' 8 13) 0x1000 0x1008 5 6 p2Mem) ∧
    EncReady false (buf (at' 8 13) 0x1000 0x1008 5 2 p2Mem) := by decide

/-- `EncReadsOnlyConsumedSamples`: a second memory that differs in the odd last sample. -/
theorem witness_odd_sample_differs :
    Memory.wf (memWrite p2Mem 0x1008 0) ∧ memWrite p2Mem 0x1008 0 ≠ p2Mem ∧
    ∀ i < 8, memRead (memWrite p2Mem 0x1008 0) (0x1000 + i) = memRead p2Mem (0x1000 + i) := by decide

/-- `DecWritesTheSamples`: with and without header, the header's index at its largest. -/
theorem witness_decReady :
    halted (buf (at' 8 13) 0x2000 0x2006 2 8 [(0x2002, 88)]) = false ∧
    (buf (at' 8 13) 0x2000 0x2006 2 8 [(0x2002, 88)]).mem.wf ∧
    DecReady true (buf (at' 8 13) 0x2000 0x2006 2 8 [(0x2002, 88)]) ∧
    DecReady false (buf (at' 8 13) 0x2000 0x2006 2 8 [(0x2002, 88)]) := by decide

/-- `EncReportsTheFirstFailedCheck`: each clause at its boundary. -/
theorem witness_enc_faults :
    halted (buf State.reset 0 0x100 4 1 []) = false ∧
    (buf State.reset 0 0x100 4 1 []).dstcap.toNat < encSize false (buf State.reset 0 0x100 4 1 []) ∧
    encSize false (buf State.reset 0xFFFFFFFD 0x100 2 1 []) ≤
      (buf State.reset 0xFFFFFFFD 0x100 2 1 []).dstcap.toNat ∧
    ¬ EncAdmitted false (buf State.reset 0xFFFFFFFD 0x100 2 1 []) ∧
    encSize false (buf State.reset 0 7 4 2 []) ≤ (buf State.reset 0 7 4 2 []).dstcap.toNat ∧
    EncAdmitted false (buf State.reset 0 7 4 2 []) ∧ ¬ EncApart false (buf State.reset 0 7 4 2 []) := by decide

/-- `DecReportsTheFirstFailedCheck`: each clause at its boundary. -/
theorem witness_dec_faults :
    halted (buf State.reset 0 0x100 2 7 []) = false ∧
    (buf State.reset 0 0x100 2 7 []).dstcap.toNat < decSize (buf State.reset 0 0x100 2 7 []) ∧
    decSize (buf State.reset 0xFFFFFFFF 0x100 2 8 []) ≤
      (buf State.reset 0xFFFFFFFF 0x100 2 8 []).dstcap.toNat ∧
    ¬ DecAdmitted false (buf State.reset 0xFFFFFFFF 0x100 2 8 []) ∧
    decSize (buf State.reset 7 0 2 8 []) ≤ (buf State.reset 7 0 2 8 []).dstcap.toNat ∧
    DecAdmitted false (buf State.reset 7 0 2 8 []) ∧ ¬ DecApart false (buf State.reset 7 0 2 8 []) ∧
    decSize (buf State.reset 0 8 1 4 [(2, 89)]) ≤ (buf State.reset 0 8 1 4 [(2, 89)]).dstcap.toNat ∧
    DecAdmitted true (buf State.reset 0 8 1 4 [(2, 89)]) ∧ DecApart true (buf State.reset 0 8 1 4 [(2, 89)]) ∧
    88 < (memRead (buf State.reset 0 8 1 4 [(2, 89)]).mem
      ((buf State.reset 0 8 1 4 [(2, 89)]).src.toNat + 2)).toNat := by decide

/-- `FaultChangesOnlyStatus`. -/
theorem witness_fault :
    ∃ t, cmdWrite State.reset 0x60000000 = .next t ∧ halted State.reset = false ∧ t.fault ≠ .clear :=
  ⟨_, rfl, by decide, by decide⟩

/-- `HaltedBlockWaitsForHardwareReset`: a halted block with a window read, and one with a reset, to come. -/
theorem witness_halted :
    halted (withAction haltedAt (.windowRead (haltedAt.params.regBase + windowOffset .status) .word) []) = true ∧
    halted (withAction haltedAt .hardReset []) = true ∧
    ∃ t, step (withAction haltedAt .hardReset []) = .next t :=
  ⟨by decide, by decide, _, rfl⟩

/-- `StatusNamesTheFirstFaultingCommand`: a good word, a faulting one, and one that is discarded. -/
theorem witness_faulting_words :
    halted State.reset = false ∧
    halted (runWords State.reset [0x20000064, 0x00000000, 0x10000000]) = true := by decide

/-- `WindowTakesAlignedWordsOnly`: an access of each clause. -/
theorem witness_window_access :
    (withAction haltedAt (.windowWrite (haltedAt.params.regBase + 0x1C) .word 5) []).pending =
      .windowWrite (haltedAt.params.regBase + 0x1C) .word 5 :: [] ∧
    (∀ off ∈ [0x00, 0x14, 0x1C],
      (withAction haltedAt (.windowRead (haltedAt.params.regBase + off) .word) []).pending =
        .windowRead (haltedAt.params.regBase + off) .word :: []) ∧
    (∀ r ∈ windowRegs, (0x1E : Nat) ≠ haltedAt.params.regBase + windowOffset r) ∧
    (withAction haltedAt (.windowRead 0x1E .word) []).pending = .windowRead 0x1E .word :: [] := by decide

/-- `ArgumentRegistersTakeWrites`: a write to each of the four registers. -/
theorem witness_argument_writes :
    ∀ off ∈ [0x04, 0x08, 0x0C, 0x10],
      (withAction haltedAt (.windowWrite (haltedAt.params.regBase + off) .word 0xFFFFFFFF) []).pending =
        .windowWrite (haltedAt.params.regBase + off) .word 0xFFFFFFFF :: [] := by decide

/-- `HostMemoryAccessesReachOneByte`: a write and a read at the top of the address space. -/
theorem witness_host_memory :
    (withAction haltedAt (.memWrite 0xFFFFFFFF 0xAA) []).mem.wf ∧
    (withAction haltedAt (.memWrite 0xFFFFFFFF 0xAA) []).pending = .memWrite 0xFFFFFFFF 0xAA :: [] ∧
    (withAction haltedAt (.memRead 0xFFFFFFFF) []).pending = .memRead 0xFFFFFFFF :: [] := by decide

/-- `RegisterCommandsFrame`. -/
theorem witness_register_commands :
    (∃ t, exec .reset (at' 8 13) = .next t) ∧ (∃ t, exec (.encstep 5) (at' 8 13) = .next t) ∧
    ∃ t, exec (.decstep 5) (at' 8 13) = .next t := ⟨⟨_, rfl⟩, ⟨_, rfl⟩, ⟨_, rfl⟩⟩

/-- `EncFrame`, `DecFrame`: a run that completes and one that faults. -/
theorem witness_buffer_commands :
    (∃ t, exec (.enc true) (buf (at' 8 13) 0x1000 0x2000 5 16 p2Mem) = .next t) ∧
    (∃ t, exec (.enc true) (buf (at' 8 13) 0x1000 0x2000 5 5 p2Mem) = .next t ∧ t.fault ≠ .clear) ∧
    (∃ t, exec (.dec false) (buf (at' 8 13) 0x1000 0x2000 2 8 p2Mem) = .next t) ∧
    ∃ t, exec (.dec false) (buf (at' 8 13) 0x1000 0x2000 2 7 p2Mem) = .next t ∧ t.fault ≠ .clear :=
  ⟨⟨_, rfl⟩, ⟨_, rfl, by decide⟩, ⟨_, rfl⟩, ⟨_, rfl, by decide⟩⟩

/-- `CodecStateChangesOnlyByItsPaths`: hardware reset and an ENCSTEP both change the Codec State. -/
theorem witness_codec_changes :
    (∃ t, step (withAction (at' 8 13) .hardReset []) = .next t ∧ t.codec ≠ (at' 8 13).codec) ∧
    ∃ t, step ((at' 8 13).withFetchWord 32 0x20000064) = .next t ∧ t.codec ≠ (at' 8 13).codec :=
  ⟨⟨_, rfl, by decide⟩, ⟨_, rfl, by decide⟩⟩

/-- `StepIndexStaysInRange`, `StepKeepsTheInvariant`, `ParametersNeverChange`: a step of a buffer command. -/
theorem witness_inv_step :
    Inv ((buf (at' 88 13) 0x1000 0x2000 5 16 p2Mem).withFetchWord 32 0x48000000) ∧
    ∃ t, step ((buf (at' 88 13) 0x1000 0x2000 5 16 p2Mem).withFetchWord 32 0x48000000) = .next t :=
  ⟨by decide, _, rfl⟩

/-- `CommandsWriteOnlyWritableBytes`: a completed ENC and an address that is not writable. -/
theorem witness_unwritable :
    (∃ t, cmdWrite (smallPlatform (buf State.reset 0 0x100 4 8 [])) 0x40000000 = .next t) ∧
    admitted (smallPlatform State.reset).params.writable 0x110 = false := ⟨⟨_, rfl⟩, by decide⟩

/-- `CommandsReadOnlyReadableBytes`: two memories that differ where nothing is readable. -/
theorem witness_unreadable :
    Memory.wf [(16, 1)] ∧ (smallPlatform State.reset).mem.wf ∧
    (∀ a, admitted (smallPlatform State.reset).params.readable a = true →
      memRead [(16, 1)] a = memRead (smallPlatform State.reset).mem a) ∧
    ∃ t, cmdWrite (smallPlatform State.reset) 0x48000000 = .next t := by
  refine ⟨by decide, by decide, fun a h => ?_, _, rfl⟩
  simp only [smallPlatform, admitted, List.any_cons, List.any_nil, Bool.or_false, Bool.and_eq_true,
    decide_eq_true_eq] at h
  show (if 16 = a then 1 else _) = _
  rw [if_neg (by omega)]
  rfl

/-- `BoundaryLengths`: each clause. -/
theorem witness_boundary_lengths :
    halted (buf State.reset 0 0x100 1 4 []) = false ∧ (buf State.reset 0 0x100 1 4 []).mem.wf ∧
    (buf State.reset 0 0x100 1 4 []).len.toNat ≤ 1 ∧ 4 ≤ (buf State.reset 0 0x100 1 4 []).dstcap.toNat ∧
    RangeOk (buf State.reset 0 0x100 1 4 []).params.writable 0x100 4 ∧
    (buf State.reset 0 0x100 0 0 []).len = 0 ∧
    RangeOk (buf State.reset 0 0x100 0 0 []).params.readable 0 4 ∧
    (memRead (buf State.reset 0 0x100 0 0 [(2, 88)]).mem 2).toNat ≤ 88 ∧
    88 < (memRead (buf State.reset 0 0x100 0 0 [(2, 89)]).mem 2).toNat ∧
    (buf State.reset 0 0 (2 ^ 32 - 1) (2 ^ 31 - 2) []).len.toNat = 2 ^ 32 - 1 ∧
    (buf State.reset 0 0 (2 ^ 32 - 1) (2 ^ 31 - 2) []).dstcap.toNat < 2 ^ 31 - 1 ∧
    2 ^ 30 ≤ (buf State.reset 1 0 (2 ^ 31) (2 ^ 30) []).len.toNat / 2 ∧
    (buf State.reset 1 0 (2 ^ 31) (2 ^ 30) []).len.toNat / 2 ≤
      (buf State.reset 1 0 (2 ^ 31) (2 ^ 30) []).dstcap.toNat ∧
    2 ^ 32 < (buf State.reset 1 0 (2 ^ 31) (2 ^ 30) []).src.toNat +
      4 * ((buf State.reset 1 0 (2 ^ 31) (2 ^ 30) []).len.toNat / 2) := by decide

/-- Every byte of the whole space is admitted, so a range that does not wrap is. -/
theorem rangeOk_wholeSpace (a n : Nat) (h : a + n ≤ 2 ^ 32) : RangeOk wholeSpace a n := by
  refine .inr ⟨h, fun i hi => ?_⟩
  simp only [admitted, wholeSpace, List.any_cons, List.any_nil, Bool.or_false, Bool.and_eq_true,
    decide_eq_true_eq, Config.addressSpace]
  omega

/-- `BoundaryLengths`, the OVERLAP clause: a source that is the whole address space. -/
theorem witness_whole_source :
    EncAdmitted false (buf State.reset 0 0 (2 ^ 31) (2 ^ 30) []) :=
  ⟨rangeOk_wholeSpace _ _ (by decide), rangeOk_wholeSpace _ _ (by decide)⟩

/-- `DecodingReproducesTheEncoder` with a header, from (8, 13): the decoder starts in any Codec State. -/
theorem witness_round_trip :
    halted (buf (at' 8 13) 0x1000 0x2000 5 6 p2Mem) = false ∧
    (buf (at' 8 13) 0x1000 0x2000 5 6 p2Mem).mem.wf ∧
    (buf (at' 8 13) 0x1000 0x2000 5 6 p2Mem).codec.stepIdx.toNat ≤ 88 ∧
    EncReady true (buf (at' 8 13) 0x1000 0x2000 5 6 p2Mem) ∧
    RangeOk (at' 8 13).params.readable 0x2000 (headerSize true + 2) ∧
    RangeOk (at' 8 13).params.writable 0x3000 8 ∧ RangesApart 0x2000 (headerSize true + 2) 0x3000 8 := by
  decide

/-- `DecodingReproducesTheEncoder` without a header: the decoder starts in the encoder's Codec State. -/
theorem witness_round_trip_without_header :
    halted (buf (at' 8 13) 0x1000 0x2000 5 2 p2Mem) = false ∧
    (buf (at' 8 13) 0x1000 0x2000 5 2 p2Mem).mem.wf ∧
    (at' 8 13).codec = (buf (at' 8 13) 0x1000 0x2000 5 2 p2Mem).codec ∧
    (buf (at' 8 13) 0x1000 0x2000 5 2 p2Mem).codec.stepIdx.toNat ≤ 88 ∧
    EncReady false (buf (at' 8 13) 0x1000 0x2000 5 2 p2Mem) ∧
    RangeOk (at' 8 13).params.readable 0x2000 (headerSize false + 2) ∧
    RangeOk (at' 8 13).params.writable 0x3000 8 ∧ RangesApart 0x2000 (headerSize false + 2) 0x3000 8 := by
  decide

/-- `SnapshotWritesTheHeader`. -/
theorem witness_snapshot :
    halted (at' 8 13) = false ∧ (at' 8 13).mem.wf ∧ RangeOk (at' 8 13).params.writable 0xFFFFFFFC 4 ∧
    { at' 8 13 with pending := expandLine (at' 8 13).params (.snapshot 0xFFFFFFFC) }.pending =
      expandLine (at' 8 13).params (.snapshot 0xFFFFFFFC) ++ [] := by decide

/-- `RestoreLoadsTheHeader`: a header with the largest index, and one above it. -/
theorem witness_restore :
    halted (at' 8 13) = false ∧ RangeOk (at' 8 13).params.readable 0xFFFFFFFC 4 ∧
    { at' 8 13 with pending := expandLine (at' 8 13).params (.restore 0xFFFFFFFC) }.pending =
      expandLine (at' 8 13).params (.restore 0xFFFFFFFC) ++ [] ∧
    (memRead [(0xFFFFFFFE, 88)] 0xFFFFFFFE).toNat ≤ 88 ∧ 88 < (memRead [(0xFFFFFFFE, 89)] 0xFFFFFFFE).toNat := by
  decide

end Sys2Proof.Tests
end

/-!
PROOFS. The state (10_state.md): the Codec State and the paths that change it (R19, R23), the register
window (R27 to R37), the parameters (R22, R39) and the step of a CMD write (R28, R61). One inversion lemma,
`step_outcome`, says what a step can do to the Codec State, the memory and the parameters; the statements
about every step are read off it.
-/

namespace Sys2Proof.Machine

open Sys2Proof.Safety

/-! ### What a completed command does -/

/-- The conditions under which a command of a block that is not halted raises no fault (R99, R105, R134). -/
def CommandReady : Instr → State → Prop
  | .reset, _ => True
  | .encstep _, _ => True
  | .decstep _, _ => True
  | .enc header, s => EncReady header s
  | .dec header, s => DecReady header s

/-- The state a command leaves when it completes without a fault. `exec_next` ties it to `exec`. -/
def commandEffect : Instr → State → State
  | .reset, s => setCodec s Codec.reset
  | .encstep x, s =>
    setResult (setCodec s (encodeStep s.params.tables s.codec x).2)
      ((encodeStep s.params.tables s.codec x).1.setWidth 32)
  | .decstep code, s =>
    setResult (setCodec s (decodeStep s.params.tables s.codec code).2)
      (bits32 (decodeStep s.params.tables s.codec code).1)
  | .enc header, s => encEffect header s
  | .dec header, s => decEffect header s

/-- What a command behind the halt can do, in terms of the recorded fault (R121). -/
theorem unlessHalted_outcome (s t u : State) (h : unlessHalted s t = .next u) :
    u = s ∨ (s.fault = .clear ∧ u = t) := by
  rcases unlessHalted_next s t u h with ⟨-, hu⟩ | ⟨hh, hu⟩
  · exact .inl hu
  · exact .inr ⟨(not_halted_iff s).mp hh, hu⟩

/-- All that a command can do: nothing while halted, its effect when ready, or a fault and no other change
(R120, R121). -/
theorem exec_next (i : Instr) (s t : State) (h : exec i s = .next t) :
    t = s ∨ (s.fault = .clear ∧ CommandReady i s ∧ t = commandEffect i s) ∨
      ∃ f, t = raiseFault s f := by
  cases i with
  | reset => exact (unlessHalted_outcome s _ t h).imp_right fun ⟨hf, ht⟩ => .inl ⟨hf, trivial, ht⟩
  | encstep x => exact (unlessHalted_outcome s _ t h).imp_right fun ⟨hf, ht⟩ => .inl ⟨hf, trivial, ht⟩
  | decstep code => exact (unlessHalted_outcome s _ t h).imp_right fun ⟨hf, ht⟩ => .inl ⟨hf, trivial, ht⟩
  | enc header =>
    rcases execEnc_next header s t h with ⟨-, ht⟩ | ⟨hh, hready, ht⟩ | ⟨-, -, ht⟩
    · exact .inl ht
    · exact .inr (.inl ⟨(not_halted_iff s).mp hh, hready, ht⟩)
    · exact .inr (.inr ⟨_, ht⟩)
  | dec header =>
    rcases execDec_next header s t h with ⟨-, ht⟩ | ⟨hh, hready, ht⟩ | ⟨-, -, ht⟩
    · exact .inl ht
    · exact .inr (.inl ⟨(not_halted_iff s).mp hh, hready, ht⟩)
    · exact .inr (.inr ⟨_, ht⟩)

@[simp] theorem commandEffect_params (i : Instr) (s : State) :
    (commandEffect i s).params = s.params := by
  cases i <;> rfl

@[simp] theorem commandEffect_fault (i : Instr) (s : State) :
    (commandEffect i s).fault = s.fault := by
  cases i <;> rfl

/-- A completed command writes only inside the address space, so it keeps the canonical form (R49). -/
theorem commandEffect_mem_wf (i : Instr) (s : State) (hready : CommandReady i s) (hm : s.mem.wf) :
    (commandEffect i s).mem.wf := by
  cases i with
  | reset => exact hm
  | encstep x => exact hm
  | decstep code => exact hm
  | enc header =>
    obtain ⟨-, ⟨-, hdst⟩, -⟩ := hready
    exact encEffect_wf header s hm (hdst.imp id And.left)
  | dec header =>
    obtain ⟨-, ⟨-, hdst⟩, -, -⟩ := hready
    exact decEffect_wf header s hm (hdst.imp id And.left)

/-! ### The paths of the Codec State (R23) -/

/-- Decode steps leave the index in range when it was in range before them (R19, R94). -/
theorem decodeSteps_stepIdx_le (t : Tables) (n : Nat) (c c' : Codec) (h : DecodeSteps t n c c')
    (hc : c.stepIdx.toNat ≤ 88) : c'.stepIdx.toNat ≤ 88 := by
  induction h with
  | done c => exact hc
  | more n c code c' _ ih => exact ih (decodeStep_stepIdx_le t c code)

/-- The Codec State from which the decode steps of a command start: (0, 0) for RESET, the loaded header for
DEC.H, the one before the command for any other (R23). -/
def codecStart : Instr → State → Codec
  | .reset, _ => Codec.reset
  | .encstep _, s => s.codec
  | .decstep _, s => s.codec
  | .enc _, s => s.codec
  | .dec header, s => decHeader header s.codec s.src.toNat s.mem

/-- The number of decode steps of a command: one for a step command, one for each sample of a buffer
command (R23). -/
def decodeStepCount : Instr → State → Nat
  | .reset, _ => 0
  | .encstep _, _ => 1
  | .decstep _, _ => 1
  | .enc _, s => 2 * (s.len.toNat / 2)
  | .dec _, s => 2 * s.len.toNat

/-- The Codec State a completed command leaves is reached by its decode steps from its start (R23). -/
theorem commandEffect_decodeSteps (i : Instr) (s : State) :
    DecodeSteps s.params.tables (decodeStepCount i s) (codecStart i s) (commandEffect i s).codec := by
  cases i with
  | reset => exact .done _
  | encstep x => exact .more _ _ (encodeStep s.params.tables s.codec x).1 _ (.done _)
  | decstep code => exact .more _ _ code _ (.done _)
  | enc header => exact encLoop_steps _ _ _ _ _ _
  | dec header => exact decLoop_steps _ _ _ _ _ _

/-- LAST_SAMPLE as a header gives it, big-endian (R101, R104). -/
theorem codecOfHeader_lastSample_toNat (b0 b1 b2 : Byte) :
    (codecOfHeader b0 b1 b2).lastSample.toNat = 256 * b0.toNat + b1.toNat := by
  have h : (codecOfHeader b0 b1 b2).lastSample.toNat = b0.toNat * 2 ^ 8 + b1.toNat :=
    toNat_append_add 8 8 b0 b1
  omega

/-- STEP_IDX as a header that passes the check of R116 gives it (R104). -/
theorem codecOfHeader_stepIdx_toNat (b0 b1 b2 : Byte) (h : b2.toNat ≤ 88) :
    (codecOfHeader b0 b1 b2).stepIdx.toNat = b2.toNat := by
  simp only [codecOfHeader, BitVec.extractLsb'_toNat, Nat.shiftRight_zero]
  omega

/-- A ready command starts its decode steps with the index in range (R19, R116). -/
theorem codecStart_stepIdx_le (i : Instr) (s : State) (hready : CommandReady i s)
    (hs : s.codec.stepIdx.toNat ≤ 88) : (codecStart i s).stepIdx.toNat ≤ 88 := by
  cases i with
  | reset => exact Nat.zero_le _
  | encstep x => exact hs
  | decstep code => exact hs
  | enc header => exact hs
  | dec header =>
    cases header with
    | false => exact hs
    | true =>
      obtain ⟨-, -, -, hheader⟩ := hready
      exact (codecOfHeader_stepIdx_toNat _ _ _ (hheader rfl)).trans_le (hheader rfl)

/-- A completed command leaves the index in range (R19). -/
theorem commandEffect_stepIdx_le (i : Instr) (s : State) (hready : CommandReady i s)
    (hs : s.codec.stepIdx.toNat ≤ 88) : (commandEffect i s).codec.stepIdx.toNat ≤ 88 :=
  decodeSteps_stepIdx_le _ _ _ _ (commandEffect_decodeSteps i s) (codecStart_stepIdx_le i s hready hs)

/-! ### What a step can do -/

@[simp] theorem writeWindow_codec (s : State) (w : Word) (r : WReg) :
    (writeWindow s w r).codec = s.codec := by
  cases r <;> rfl

@[simp] theorem writeWindow_mem (s : State) (w : Word) (r : WReg) :
    (writeWindow s w r).mem = s.mem := by
  cases r <;> rfl

@[simp] theorem writeWindow_params (s : State) (w : Word) (r : WReg) :
    (writeWindow s w r).params = s.params := by
  cases r <;> rfl

/-- All that a CMD write can do: nothing, the effect of the command it decodes to, or a fault and no other
change (R28, R120, R121). -/
theorem cmdWrite_outcome (s t : State) (w : Word) (h : cmdWrite s w = .next t) :
    t = s ∨
    (∃ i, decode w = .command i ∧ s.fault = .clear ∧ CommandReady i s ∧ t = commandEffect i s) ∨
    ∃ f, t = raiseFault s f := by
  rcases cmdWrite_next s t w h with ⟨-, ht⟩ | ⟨-, i, hd, hexec⟩ | ⟨-, -, ht⟩
  · exact .inl ht
  · rcases exec_next i s t hexec with ht | ⟨hf, hready, ht⟩ | ht
    · exact .inl ht
    · exact .inr (.inl ⟨i, hd, hf, hready, ht⟩)
    · exact .inr (.inr ht)
  · exact .inr (.inr ⟨_, ht⟩)

/-- What a step can do to the Codec State, the memory and the parameters: a completed command, hardware
reset, a byte the host writes, and in every other step nothing (R23, R58). -/
theorem step_outcome (s t : State) (h : step s = .next t) :
    (∃ w rest i, s.pending = .windowWrite s.params.regBase .word w :: rest ∧ decode w = .command i ∧
      s.fault = .clear ∧ CommandReady i (setPending s rest) ∧ t = commandEffect i (setPending s rest)) ∨
    (∃ rest, s.pending = .hardReset :: rest ∧ t = hardReset (setPending s rest)) ∨
    (∃ a b rest, s.pending = .memWrite a b :: rest ∧
      t = setMem (setPending s rest) (memWrite s.mem a.toNat b)) ∨
    (t.codec = s.codec ∧ t.mem = s.mem ∧ t.params = s.params) := by
  rcases step_next s t h with ⟨-, rfl⟩ | ⟨w, rest, hp, hcmd⟩ | ⟨r, w, rest, -, -, rfl⟩ |
    ⟨r, rest, -, rfl⟩ | hwrite | ⟨a, rest, -, rfl⟩ | hreset
  · exact .inr (.inr (.inr ⟨rfl, rfl, rfl⟩))
  · rcases cmdWrite_outcome _ t w hcmd with rfl | ⟨i, hd, hf, hready, ht⟩ | ⟨f, rfl⟩
    · exact .inr (.inr (.inr ⟨rfl, rfl, rfl⟩))
    · exact .inl ⟨w, rest, i, hp, hd, hf, hready, ht⟩
    · exact .inr (.inr (.inr ⟨rfl, rfl, rfl⟩))
  · exact .inr (.inr (.inr (by simp)))
  · exact .inr (.inr (.inr ⟨rfl, rfl, rfl⟩))
  · exact .inr (.inr (.inl hwrite))
  · exact .inr (.inr (.inr ⟨rfl, rfl, rfl⟩))
  · exact .inr (.inl hreset)

/-- Every step keeps the index in range (R19). -/
theorem step_keeps_stepIndexOk (s t : State) (hs : StepIndexOk s) (h : step s = .next t) :
    StepIndexOk t := by
  rcases step_outcome s t h with ⟨w, rest, i, -, -, -, hready, rfl⟩ | ⟨rest, -, rfl⟩ |
    ⟨a, b, rest, -, rfl⟩ | ⟨hc, -, -⟩
  · exact commandEffect_stepIdx_le i (setPending s rest) hready hs
  · exact Nat.zero_le _
  · exact hs
  · rw [StepIndexOk, hc]; exact hs

/-- Every step keeps the memory in its canonical form (R41, R49). -/
theorem step_keeps_mem_wf (s t : State) (hm : s.mem.wf) (h : step s = .next t) : t.mem.wf := by
  rcases step_outcome s t h with ⟨w, rest, i, -, -, -, hready, rfl⟩ | ⟨rest, -, rfl⟩ |
    ⟨a, b, rest, -, rfl⟩ | ⟨-, hmem, -⟩
  · exact commandEffect_mem_wf i (setPending s rest) hready hm
  · exact hm
  · exact memWrite_wf s.mem a.toNat b hm a.isLt
  · rw [hmem]; exact hm

/-- Settles O31: a step that changes the Codec State is hardware reset or a completed command, and a command
leaves what its decode steps from its start leave. -/
theorem codecStateChangesOnlyByItsPaths : Obligations.CodecStateChangesOnlyByItsPaths := by
  unfold Obligations.CodecStateChangesOnlyByItsPaths
  intro s t h hne
  rcases step_outcome s t h with ⟨w, rest, i, hp, hd, hf, hready, rfl⟩ | ⟨rest, hp, rfl⟩ |
    ⟨a, b, rest, -, rfl⟩ | ⟨hc, -, -⟩
  · refine .inr ⟨w, rest, i, hp, hd, hf, by simpa using hf, ?_⟩
    have hsteps := commandEffect_decodeSteps i (setPending s rest)
    cases i with
    | reset => exact .inl ⟨rfl, rfl⟩
    | encstep x => exact .inr (.inl ⟨⟨x, rfl⟩, hsteps⟩)
    | decstep code => exact .inr (.inr (.inl ⟨⟨code, rfl⟩, hsteps⟩))
    | enc header => exact .inr (.inr (.inr (.inl ⟨⟨header, rfl⟩, hsteps⟩)))
    | dec header =>
      cases header with
      | false => exact .inr (.inr (.inr (.inr (.inl ⟨rfl, hsteps⟩))))
      | true =>
        obtain ⟨-, -, -, hheader⟩ := hready
        exact .inr (.inr (.inr (.inr (.inr ⟨rfl, _, codecOfHeader_lastSample_toNat _ _ _,
          codecOfHeader_stepIdx_toNat _ _ _ (hheader rfl), hsteps⟩))))
  · exact .inl ⟨rest, hp, rfl⟩
  · exact absurd rfl hne
  · exact absurd hc hne

/-- Settles O32: the index by `step_keeps_stepIndexOk`, LAST_SAMPLE by its width. -/
theorem stepIndexStaysInRange : Obligations.StepIndexStaysInRange := by
  unfold Obligations.StepIndexStaysInRange
  intro s t hs h
  have hlow := BitVec.le_toInt t.codec.lastSample
  have hhigh := BitVec.toInt_lt (x := t.codec.lastSample)
  exact ⟨step_keeps_stepIndexOk s t hs h, by omega, by omega⟩

/-- Settles O33, from the two parts of the invariant. -/
theorem stepKeepsTheInvariant : Obligations.StepKeepsTheInvariant := by
  unfold Obligations.StepKeepsTheInvariant
  rintro s t ⟨hidx, hm⟩ h
  exact ⟨step_keeps_stepIndexOk s t hidx h, step_keeps_mem_wf s t hm h⟩

/-- Settles O35, by `step_outcome`. -/
theorem parametersNeverChange : Obligations.ParametersNeverChange := by
  unfold Obligations.ParametersNeverChange
  intro s t h
  rcases step_outcome s t h with ⟨w, rest, i, -, -, -, -, rfl⟩ | ⟨rest, -, rfl⟩ |
    ⟨a, b, rest, -, rfl⟩ | ⟨-, -, hparams⟩
  · exact commandEffect_params i (setPending s rest)
  · rfl
  · rfl
  · exact hparams

/-! ### The window -/

/-- A step whose next action is a window access that reaches no register is refused (R36; log 8). -/
theorem step_refused (s : State) (addr : Nat) (size : AccessSize) (v : Word) (rest : List HostAction)
    (hnone : windowRegAt s.params addr size = none)
    (hp : s.pending = .windowWrite addr size v :: rest ∨ s.pending = .windowRead addr size :: rest) :
    step s = .refused .windowAccess := by
  unfold step nextAction
  rcases hp with hp | hp <;> simp only [hp, hostAction, setPending_params, hnone]

/-- Settles O25: each register by the step lemma of its access, any other access by `step_refused`. -/
theorem windowTakesAlignedWordsOnly : Obligations.WindowTakesAlignedWordsOnly := by
  unfold Obligations.WindowTakesAlignedWordsOnly
  intro s rest
  refine ⟨?ignored, ?read, rfl, rfl, rfl, rfl, rfl, rfl, ?refused⟩
  case ignored =>
    intro off v hoff hp
    simp only [List.mem_cons, List.not_mem_nil, or_false] at hoff
    rcases hoff with rfl | rfl | rfl
    · exact step_windowWrite s .result v rest hp
    · exact step_windowWrite s .state v rest hp
    · exact step_windowWrite s .status v rest hp
  case read =>
    intro off r hmem
    have hoff : windowOffset r = off := by
      simp only [List.mem_cons, Prod.mk.injEq, List.not_mem_nil, or_false] at hmem
      rcases hmem with ⟨rfl, rfl⟩ | ⟨rfl, rfl⟩ | ⟨rfl, rfl⟩ | ⟨rfl, rfl⟩ | ⟨rfl, rfl⟩ | ⟨rfl, rfl⟩ |
        ⟨rfl, rfl⟩ | ⟨rfl, rfl⟩ <;> rfl
    subst hoff
    exact ⟨rfl, step_windowRead s r rest⟩
  case refused =>
    intro addr size v hout hp
    exact step_refused s addr size v rest (windowRegAt_none s.params addr size hout) hp

/-- Settles O26, by `step_windowWrite` at each of the four registers. -/
theorem argumentRegistersTakeWrites : Obligations.ArgumentRegistersTakeWrites := by
  unfold Obligations.ArgumentRegistersTakeWrites
  exact fun s v rest => ⟨step_windowWrite s .src v rest, step_windowWrite s .dst v rest,
    step_windowWrite s .len v rest, step_windowWrite s .dstcap v rest⟩

/-! ### Reset and the CMD write -/

/-- Settles O6, register by register. -/
theorem resetStateHoldsSpecValues : Obligations.ResetStateHoldsSpecValues := by
  unfold Obligations.ResetStateHoldsSpecValues
  refine ⟨rfl, rfl, fun r => ?_, rfl⟩
  cases r <;> decide

/-- OP as a number (R62). -/
theorem fieldOp_toNat (w : Word) : (fieldOp w).toNat = w.toNat / 2 ^ 28 := by
  have := w.isLt
  simp only [fieldOp, BitVec.extractLsb'_toNat, Nat.shiftRight_eq_div_pow]
  omega

/-- RSV as a number (R62). -/
theorem fieldRsv_toNat (w : Word) : (fieldRsv w).toNat = w.toNat / 2 ^ 16 % 2 ^ 11 := by
  simp only [fieldRsv, BitVec.extractLsb'_toNat, Nat.shiftRight_eq_div_pow]

/-- DATA as a number (R62). -/
theorem fieldData_toNat (w : Word) : (fieldData w).toNat = w.toNat % 2 ^ 16 := by
  simp only [fieldData, BitVec.extractLsb'_toNat, Nat.shiftRight_zero]

/-- H as a number (R62). -/
theorem fieldH_toNat (w : Word) : (fieldH w).toNat = w.toNat / 2 ^ 27 % 2 :=
  Nat.toNat_testBit w.toNat 27

/-- The conditions of R70 on the fields that the decoder reads (R62). -/
theorem legalWord_iff_fields (w : Word) :
    legalWord w = true ↔ fieldRsv w = 0 ∧
      ((fieldOp w = 1 ∧ fieldH w = false ∧ fieldData w = 0) ∨ (fieldOp w = 2 ∧ fieldH w = false) ∨
        (fieldOp w = 3 ∧ fieldH w = false) ∨ (fieldOp w = 4 ∧ fieldData w = 0) ∨
        (fieldOp w = 5 ∧ fieldData w = 0)) := by
  have hh : fieldH w = false ↔ w.toNat / 2 ^ 27 % 2 = 0 := by
    rw [← fieldH_toNat, Bool.toNat_eq_zero]
  simp only [legalWord, illegalOp, illegalRsv, illegalH, illegalData, hh, BitVec.toNat_eq, fieldOp_toNat,
    fieldRsv_toNat, fieldData_toNat, BitVec.reduceToNat, Bool.and_eq_true, Bool.not_eq_true',
    Bool.or_eq_false_iff, Bool.and_eq_false_iff, decide_eq_false_iff_not]
  have hbit : w.toNat / 2 ^ 27 % 2 < 2 := Nat.mod_lt _ (by decide)
  generalize w.toNat / 2 ^ 28 = op, w.toNat / 2 ^ 27 % 2 = h, w.toNat / 2 ^ 16 % 2 ^ 11 = rsv,
    w.toNat % 2 ^ 16 = data at hbit ⊢
  constructor
  · rintro ⟨⟨⟨hop, hrsv⟩, hh⟩, hdata⟩
    exact ⟨by omega, by omega⟩
  · rintro ⟨hrsv, ⟨hop, hh, hdata⟩ | ⟨hop, hh⟩ | ⟨hop, hh⟩ | ⟨hop, hdata⟩ | ⟨hop, hdata⟩⟩ <;> omega

/-- The decoder reads a command from the legal words and from no other (R70, R72). -/
theorem decode_command_iff_legalWord (w : Word) :
    (∃ i, decode w = .command i) ↔ legalWord w = true := by
  rw [legalWord_iff_fields]
  unfold decode
  split_ifs <;> simp_all

/-- An illegal word decodes to no command (R70, R71). -/
theorem decode_of_not_legalWord (w : Word) (h : legalWord w = false) :
    ∃ why, decode w = .illegal why := by
  cases hd : decode w with
  | command i => exact absurd ((decode_command_iff_legalWord w).mp ⟨i, hd⟩) (by simp [h])
  | illegal why => exact ⟨why, rfl⟩

/-- A step whose next action writes a word to CMD is the CMD write of that word (R28). -/
theorem step_cmdWrite (s : State) (w : Word) (rest : List HostAction)
    (h : s.pending = .windowWrite s.params.regBase .word w :: rest) :
    step s = cmdWrite (setPending s rest) w := step_windowWrite s .cmd w rest h

/-- Settles O8: `step_cmdWrite`, then the CMD write of a command or of an illegal word. -/
theorem stepRunsTheDecodedCommand : Obligations.StepRunsTheDecodedCommand := by
  unfold Obligations.StepRunsTheDecodedCommand
  intro s w rest hp
  have hstep := step_cmdWrite s w rest hp
  refine ⟨hstep, fun i hd => ?_, fun hw hh => ?_, fun hw hh => ?_⟩
  · exact hstep.trans (cmdWrite_command _ w i hd)
  · obtain ⟨why, hd⟩ := decode_of_not_legalWord w hw
    rw [hstep, cmdWrite_illegal _ w why hd]
    exact unlessHalted_running (setPending s rest) _ hh
  · obtain ⟨why, hd⟩ := decode_of_not_legalWord w hw
    rw [hstep, cmdWrite_illegal _ w why hd]
    exact unlessHalted_halted (setPending s rest) _ hh

/-! ### The words of STATUS and STATE -/

/-- STATUS as a number: FCODE from bit 4 up and FAULT in bit 0 (R35). -/
theorem statusWord_toNat (f : FaultCode) :
    (statusWord f).toNat = 16 * faultNumber f + (faultFlag f).toNat := by cases f <;> rfl

/-- Every fault number fits FCODE (R113). -/
theorem faultNumber_le (f : FaultCode) : faultNumber f ≤ 5 := by cases f <;> decide

/-- The fault codes have different numbers (R113). -/
theorem faultNumber_injective : Function.Injective faultNumber := by
  intro f g
  cases f <;> cases g <;> decide

/-- FAULT is set exactly when FCODE is not 0 (R35). -/
theorem faultFlag_iff (f : FaultCode) : (faultFlag f).toNat = 1 ↔ faultNumber f ≠ 0 := by
  cases f <;> decide

/-- Settles O23: the fields are read off `statusWord_toNat`. -/
theorem statusWordFields : Obligations.StatusWordFields := by
  unfold Obligations.StatusWordFields
  intro s w fcode
  have hw : w.toNat = 16 * faultNumber s.fault + (faultFlag s.fault).toNat :=
    statusWord_toNat s.fault
  have hnumber := faultNumber_le s.fault
  have hflag := (faultFlag s.fault).toNat_lt
  have hfcode : fcode = faultNumber s.fault := by simp only [fcode]; omega
  have hbit : w.toNat % 2 = 1 ↔ (faultFlag s.fault).toNat = 1 := by omega
  refine ⟨fun f n hmem => ?_, by omega, by omega, ?_, ?_, fun v => rfl⟩
  · have hn : faultNumber f = n := by
      simp only [List.mem_cons, Prod.mk.injEq, List.not_mem_nil, or_false] at hmem
      rcases hmem with ⟨rfl, rfl⟩ | ⟨rfl, rfl⟩ | ⟨rfl, rfl⟩ | ⟨rfl, rfl⟩ | ⟨rfl, rfl⟩ |
        ⟨rfl, rfl⟩ <;> rfl
    rw [hfcode, ← hn, faultNumber_injective.eq_iff]
  · rw [hbit, hfcode, faultFlag_iff]
  · rw [hbit, Bool.toNat_eq_one]
    rfl

/-- STATE as a number: STEP_IDX from bit 16 up, LAST_SAMPLE below it (R34). -/
theorem stateView_toNat (c : Codec) :
    (stateView c).toNat = c.stepIdx.toNat * 2 ^ 16 + c.lastSample.toNat := by
  unfold stateView
  rw [toNat_append_add, toNat_append_add, BitVec.toNat_ofNat]
  omega

/-- Settles O24: the fields are read off `stateView_toNat`. -/
theorem stateWordFields : Obligations.StateWordFields := by
  unfold Obligations.StateWordFields
  refine ⟨?_, by decide⟩
  intro s w
  have hw : w.toNat = s.codec.stepIdx.toNat * 2 ^ 16 + s.codec.lastSample.toNat :=
    stateView_toNat s.codec
  have hlow := s.codec.lastSample.isLt
  exact ⟨by omega, by omega, fun v => rfl⟩

end Sys2Proof.Machine

/-!
PROOFS. The byte memory (20_memory.md): the host's own accesses (R41, R48, R58), the frame of the register
commands (R43), and which bytes a command reads and writes (R42, R115). `commandEffect_mem_other` says that a
completed command changes only bytes of its destination range, `commandEffect_congr` that it depends only on
bytes of its source range; the BUS check passes only where both ranges are admitted.
-/

namespace Sys2Proof.Machine

open Sys2Proof.Safety

/-! ### The bytes a command reads and writes -/

/-- Byte `a` lies in the source range of a command (R43, R98, R103). `commandEffect_congr` ties it to what the
command depends on. -/
def CommandReads : Instr → State → Nat → Prop
  | .reset, _, _ => False
  | .encstep _, _, _ => False
  | .decstep _, _, _ => False
  | .enc _, s, a => InRange s.src.toNat (4 * (s.len.toNat / 2)) a
  | .dec header, s, a => InRange s.src.toNat (headerSize header + s.len.toNat) a

/-- Byte `a` lies in the destination range of a command (R43, R98, R103). `commandEffect_mem_other` ties it to
what the command changes. -/
def CommandWrites : Instr → State → Nat → Prop
  | .reset, _, _ => False
  | .encstep _, _, _ => False
  | .decstep _, _, _ => False
  | .enc header, s, a => InRange s.dst.toNat (encSize header s) a
  | .dec _, s, a => InRange s.dst.toNat (decSize s) a

/-- Every byte of a range that passes the BUS check is admitted (R115). -/
theorem admitted_of_rangeOk (regions : List Region) (base n a : Nat) (h : RangeOk regions base n)
    (ha : InRange base n a) : admitted regions a = true := by
  obtain ⟨hlow, hhigh⟩ := ha
  rcases h with rfl | ⟨-, hall⟩
  · omega
  · have := hall (a - base) (by omega)
    rwa [Nat.add_sub_cancel' hlow] at this

/-- A range with a byte in it that passes the BUS check does not wrap (R49). -/
theorem rangeOk_fits (regions : List Region) (base n a : Nat) (h : RangeOk regions base n)
    (ha : InRange base n a) : base + n ≤ Config.addressSpace := by
  obtain ⟨hlow, hhigh⟩ := ha
  rcases h with rfl | ⟨hfits, -⟩
  · omega
  · exact hfits

/-- A ready command's source bytes are readable (R42, R115). -/
theorem commandReads_readable (i : Instr) (s : State) (a : Nat) (hready : CommandReady i s)
    (ha : CommandReads i s a) : admitted s.params.readable a = true := by
  cases i with
  | reset => exact ha.elim
  | encstep x => exact ha.elim
  | decstep code => exact ha.elim
  | enc header =>
    obtain ⟨-, ⟨hsrc, -⟩, -⟩ := hready
    exact admitted_of_rangeOk _ _ _ a hsrc ha
  | dec header =>
    obtain ⟨-, ⟨hsrc, -⟩, -, -⟩ := hready
    exact admitted_of_rangeOk _ _ _ a hsrc ha

/-- A ready command's destination bytes are writable (R42, R115). -/
theorem commandWrites_writable (i : Instr) (s : State) (a : Nat) (hready : CommandReady i s)
    (ha : CommandWrites i s a) : admitted s.params.writable a = true := by
  cases i with
  | reset => exact ha.elim
  | encstep x => exact ha.elim
  | decstep code => exact ha.elim
  | enc header =>
    obtain ⟨-, ⟨-, hdst⟩, -⟩ := hready
    exact admitted_of_rangeOk _ _ _ a hdst ha
  | dec header =>
    obtain ⟨-, ⟨-, hdst⟩, -, -⟩ := hready
    exact admitted_of_rangeOk _ _ _ a hdst ha

/-- A completed command changes no byte outside its destination range (R43). -/
theorem commandEffect_mem_other (i : Instr) (s : State) (a : Nat) (ha : ¬ CommandWrites i s a) :
    memRead (commandEffect i s).mem a = memRead s.mem a := by
  cases i with
  | reset => rfl
  | encstep x => rfl
  | decstep code => rfl
  | enc header => exact encEffect_mem_other header s a ha
  | dec header => exact decEffect_mem_other header s a ha

/-- Settles O36: only a completed command changes memory, and the bytes it writes are writable. -/
theorem commandsWriteOnlyWritableBytes : Obligations.CommandsWriteOnlyWritableBytes := by
  unfold Obligations.CommandsWriteOnlyWritableBytes
  intro s t w h a ha
  rcases cmdWrite_outcome s t w h with rfl | ⟨i, -, -, hready, rfl⟩ | ⟨f, rfl⟩
  · rfl
  · refine commandEffect_mem_other i s a fun hwrites => ?_
    have := commandWrites_writable i s a hready hwrites
    simp [ha] at this
  · rfl

/-! ### A completed command depends on its source bytes only -/

/-- Equal samples have equal bytes (R44). -/
theorem memRead_of_memRead16 (m m' : Memory) (a : Nat) (h : memRead16 m a = memRead16 m' a) :
    memRead m a = memRead m' a ∧ memRead m (a + 1) = memRead m' (a + 1) := by
  have heq := congrArg BitVec.toNat h
  simp only [memRead16, sampleOf, toNat_append_add] at heq
  have hlow := (memRead m a).isLt
  have hlow' := (memRead m' a).isLt
  exact ⟨BitVec.eq_of_toNat_eq (by omega), BitVec.eq_of_toNat_eq (by omega)⟩

/-- ENC from two memories that agree on its source leaves the same Codec State and the same destination
bytes (R95, R96, R97). -/
theorem encEffect_congr (header : Bool) (s : State) (m : Memory) (hready : EncReady header s)
    (hs : s.mem.wf) (hm : m.wf)
    (hagree : ∀ a, InRange s.src.toNat (4 * (s.len.toNat / 2)) a → memRead m a = memRead s.mem a) :
    (encEffect header (setMem s m)).codec = (encEffect header s).codec ∧
      ∀ a, InRange s.dst.toNat (encSize header s) a →
        memRead (encEffect header (setMem s m)).mem a = memRead (encEffect header s).mem a := by
  obtain ⟨-, ⟨-, hdst⟩, hapart⟩ := hready
  have hsamples : samplesAt m s.src.toNat (2 * (s.len.toNat / 2)) =
      samplesAt s.mem s.src.toNat (2 * (s.len.toNat / 2)) :=
    samplesAt_congr _ _ _ _ fun a hlow hhigh => hagree a ⟨hlow, by omega⟩
  refine ⟨?codec, fun a ha => ?bytes⟩
  case codec =>
    rw [encEffect_codec header s hapart, encEffect_codec header (setMem s m) hapart]
    exact congrArg (fun xs => (encodeList s.params.tables s.codec xs).2) hsamples
  case bytes =>
    have hfits := rangeOk_fits _ _ _ a hdst ha
    obtain ⟨hlow, hhigh⟩ := ha
    by_cases hpayload : s.dst.toNat + headerSize header ≤ a
    · obtain ⟨k, rfl⟩ := Nat.exists_eq_add_of_le hpayload
      have hk : k < s.len.toNat / 2 := by simp only [encSize] at hhigh; omega
      rw [encEffect_payload header s hapart hs hfits k hk, ← hsamples]
      exact encEffect_payload header (setMem s m) hapart hm hfits k hk
    · obtain ⟨k, rfl⟩ := Nat.exists_eq_add_of_le hlow
      cases header with
      | false => exact absurd hlow hpayload
      | true =>
        have hk : k < 4 := Nat.lt_of_add_lt_add_left (Nat.not_le.mp hpayload)
        rw [encEffect_header s hs hfits k hk]
        exact encEffect_header (setMem s m) hm hfits k hk

/-- The Codec State that DEC starts from depends on the header bytes only (R104). -/
theorem decHeader_congr (header : Bool) (c : Codec) (src : Nat) (m m' : Memory)
    (hagree : ∀ a, InRange src (headerSize header) a → memRead m a = memRead m' a) :
    decHeader header c src m = decHeader header c src m' := by
  cases header with
  | false => rfl
  | true =>
    have h4 : headerSize true = 4 := rfl
    simp only [decHeader, hagree src ⟨by omega, by omega⟩, hagree (src + 1) ⟨by omega, by omega⟩,
      hagree (src + 2) ⟨by omega, by omega⟩]

/-- DEC from two memories that agree on its source leaves the same Codec State and the same destination
bytes (R104, R106, R107). -/
theorem decEffect_congr (header : Bool) (s : State) (m : Memory) (hready : DecReady header s)
    (hs : s.mem.wf) (hm : m.wf)
    (hagree : ∀ a, InRange s.src.toNat (headerSize header + s.len.toNat) a →
      memRead m a = memRead s.mem a) :
    (decEffect header (setMem s m)).codec = (decEffect header s).codec ∧
      ∀ a, InRange s.dst.toNat (decSize s) a →
        memRead (decEffect header (setMem s m)).mem a = memRead (decEffect header s).mem a := by
  obtain ⟨-, ⟨-, hdst⟩, hapart, -⟩ := hready
  have hpayload : bytesAt m (s.src.toNat + headerSize header) s.len.toNat =
      bytesAt s.mem (s.src.toNat + headerSize header) s.len.toNat :=
    bytesAt_congr _ _ _ _ fun a hlow hhigh => hagree a ⟨by omega, by omega⟩
  have hstart : decHeader header s.codec s.src.toNat m = decHeader header s.codec s.src.toNat s.mem :=
    decHeader_congr header _ _ _ _ fun a ⟨hlow, hhigh⟩ => hagree a ⟨hlow, by omega⟩
  have hdecode := congrArg₂ (fun c bs => decodeList s.params.tables c (codesOf bs)) hstart hpayload
  refine ⟨?codec, fun a ha => ?bytes⟩
  case codec =>
    rw [decEffect_codec header s hapart, decEffect_codec header (setMem s m) hapart]
    exact congrArg Prod.snd hdecode
  case bytes =>
    have hfits := rangeOk_fits _ _ _ a hdst ha
    obtain ⟨hlow, hhigh⟩ := ha
    obtain ⟨k, rfl⟩ := Nat.exists_eq_add_of_le hlow
    have hk : k / 2 < 2 * s.len.toNat := by simp only [decSize] at hhigh; omega
    have hsample : memRead16 (decEffect header (setMem s m)).mem (s.dst.toNat + 2 * (k / 2)) =
        memRead16 (decEffect header s).mem (s.dst.toNat + 2 * (k / 2)) := by
      rw [decEffect_samples header s hapart hs hfits (k / 2) hk]
      exact (decEffect_samples header (setMem s m) hapart hm hfits (k / 2) hk).trans
        (congrArg (fun r => r.1.getD (k / 2) 0) hdecode)
    obtain ⟨heven, hodd⟩ := memRead_of_memRead16 _ _ _ hsample
    rcases Nat.mod_two_eq_zero_or_one k with h | h
    · rwa [show s.dst.toNat + 2 * (k / 2) = s.dst.toNat + k by omega] at heven
    · rwa [show s.dst.toNat + 2 * (k / 2) + 1 = s.dst.toNat + k by omega] at hodd

/-- A completed command from two memories that agree on its source bytes leaves the same Codec State and
writes the same bytes. -/
theorem commandEffect_congr (i : Instr) (s : State) (m : Memory) (hready : CommandReady i s)
    (hs : s.mem.wf) (hm : m.wf)
    (hagree : ∀ a, CommandReads i s a → memRead m a = memRead s.mem a) :
    (commandEffect i (setMem s m)).codec = (commandEffect i s).codec ∧
      ∀ a, CommandWrites i s a →
        memRead (commandEffect i (setMem s m)).mem a = memRead (commandEffect i s).mem a := by
  cases i with
  | reset => exact ⟨rfl, fun a ha => ha.elim⟩
  | encstep x => exact ⟨rfl, fun a ha => ha.elim⟩
  | decstep code => exact ⟨rfl, fun a ha => ha.elim⟩
  | enc header => exact encEffect_congr header s m hready hs hm hagree
  | dec header => exact decEffect_congr header s m hready hs hm hagree

/-- The memory reaches no register of a completed command but the Codec State. -/
theorem commandEffect_setMem (i : Instr) (s : State) (m : Memory) :
    commandEffect i (setMem s m) = setMem (setCodec (commandEffect i s)
      (commandEffect i (setMem s m)).codec) (commandEffect i (setMem s m)).mem := by
  cases i <;> rfl

/-! ### The fault of a command depends on readable bytes only -/

/-- The memory `m` agrees with that of `s` on every readable byte (R42). -/
abbrev AgreesOnReadable (s : State) (m : Memory) : Prop :=
  ∀ a, admitted s.params.readable a = true → memRead m a = memRead s.mem a

/-- The fault that the checks of a command answer: none for a register command (R119). -/
def commandFault : Instr → State → FaultCode
  | .reset, _ => .clear
  | .encstep _, _ => .clear
  | .decstep _, _ => .clear
  | .enc header, s => encFault header s
  | .dec header, s => decFault header s

/-- Every command is its checks and then its effect, unless the block is halted (R119, R120, R121). -/
theorem exec_eq_checked (i : Instr) (s : State) :
    exec i s = unlessHalted s (checked s (commandFault i s) (commandEffect i s)) := by
  cases i <;> rfl

/-- A command whose checks find no fault is ready (R134). -/
theorem commandReady_of_clear (i : Instr) (s : State) (h : commandFault i s = .clear) :
    CommandReady i s := by
  cases i with
  | reset => trivial
  | encstep x => trivial
  | decstep code => trivial
  | enc header =>
    change encFault header s = .clear at h
    rcases encFault_cases header s with ⟨-, hf⟩ | ⟨-, -, hf⟩ | ⟨-, -, -, hf⟩ | ⟨hready, -⟩
    · simp [hf] at h
    · simp [hf] at h
    · simp [hf] at h
    · exact hready
  | dec header =>
    change decFault header s = .clear at h
    rcases decFault_cases header s with ⟨-, hf⟩ | ⟨-, -, hf⟩ | ⟨-, -, -, hf⟩ | ⟨-, -, -, -, hf⟩ |
      ⟨hready, -⟩
    · simp [hf] at h
    · simp [hf] at h
    · simp [hf] at h
    · simp [hf] at h
    · exact hready

/-- The source range of a buffer command that passes the shared checks is readable (R115). -/
theorem rangeOk_of_bufferFault_clear (p : Params) (a : BufferArgs) (nin nout : Nat)
    (h : bufferFault p a nin nout = .clear) : RangeOk p.readable a.src nin := by
  rcases bufferFault_cases p a nin nout with ⟨-, hf⟩ | ⟨-, -, hf⟩ | ⟨-, -, -, hf⟩ | ⟨-, ⟨hsrc, -⟩, -⟩
  · simp [hf] at h
  · simp [hf] at h
  · simp [hf] at h
  · exact hsrc

/-- The header check depends on byte 2 of the header only (R116). -/
theorem headerFault_congr (m m' : Memory) (header : Bool) (src : Nat)
    (h : header = true → memRead m (src + 2) = memRead m' (src + 2)) :
    headerFault m header src = headerFault m' header src := by
  cases header with
  | false => rfl
  | true => unfold headerFault; rw [h rfl]

/-- DEC's checks read the header only once it is known to be readable (R116, R119). -/
theorem decFault_congr (header : Bool) (s : State) (m : Memory) (hagree : AgreesOnReadable s m) :
    decFault header (setMem s m) = decFault header s := by
  refine ite_congr rfl (fun hclear => headerFault_congr _ _ header _ ?_) fun _ => rfl
  rintro rfl
  have hsrc : RangeOk s.params.readable s.src.toNat (4 + s.len.toNat) :=
    rangeOk_of_bufferFault_clear _ _ _ _ hclear
  have hin : InRange s.src.toNat (4 + s.len.toNat) (s.src.toNat + 2) := ⟨by omega, by omega⟩
  exact hagree _ (admitted_of_rangeOk _ _ _ _ hsrc hin)

/-- The fault of a command is the same from two memories that agree on the readable bytes (R42, R116). -/
theorem commandFault_congr (i : Instr) (s : State) (m : Memory) (hagree : AgreesOnReadable s m) :
    commandFault i (setMem s m) = commandFault i s := by
  cases i with
  | reset => rfl
  | encstep x => rfl
  | decstep code => rfl
  | enc header => rfl
  | dec header => exact decFault_congr header s m hagree

/-! ### Two blocks that differ in memory -/

/-- `t` and `t'`, reached from `s` and from `s` with the memory `m`, are alike but for their memories, and
every byte of these reads alike in both or is unchanged in both. -/
def EndsAlike (s : State) (m : Memory) (t t' : State) : Prop :=
  t' = setMem t t'.mem ∧
    ∀ a, memRead t'.mem a = memRead t.mem a ∨
      (memRead t'.mem a = memRead m a ∧ memRead t.mem a = memRead s.mem a)

/-- A change of the registers alone ends alike. -/
theorem endsAlike_of_mem_eq (s t : State) (m : Memory) (h : t.mem = s.mem) :
    EndsAlike s m t (setMem t m) :=
  ⟨rfl, fun _ => .inr ⟨rfl, by rw [h]⟩⟩

/-- The effects of a ready command end alike when the memories agree on the readable bytes (R42). -/
theorem endsAlike_commandEffect (i : Instr) (s : State) (m : Memory) (hready : CommandReady i s)
    (hs : s.mem.wf) (hm : m.wf) (hagree : AgreesOnReadable s m) :
    EndsAlike s m (commandEffect i s) (commandEffect i (setMem s m)) := by
  obtain ⟨hcodec, hbytes⟩ := commandEffect_congr i s m hready hs hm
    fun a ha => hagree a (commandReads_readable i s a hready ha)
  refine ⟨?alike, fun a => ?byte⟩
  case alike =>
    have h := commandEffect_setMem i s m
    rwa [hcodec] at h
  case byte =>
    by_cases ha : CommandWrites i s a
    · exact .inl (hbytes a ha)
    · exact .inr ⟨commandEffect_mem_other i (setMem s m) a (by cases i <;> exact ha),
        commandEffect_mem_other i s a ha⟩

/-- Checks that answer one fault code end alike when the effects behind them do (R120). -/
theorem endsAlike_checked (s : State) (m : Memory) (f : FaultCode) (t t' : State)
    (h : f = .clear → EndsAlike s m t t') :
    EndsAlike s m (checked s f t) (checked (setMem s m) f t') := by
  by_cases hf : f = .clear
  · rw [checked_clear _ _ _ hf, checked_clear _ _ _ hf]
    exact h hf
  · rw [checked_fault _ _ _ hf, checked_fault _ _ _ hf]
    exact endsAlike_of_mem_eq s (raiseFault s f) m rfl

/-- Commands behind the halt end alike when what they do does (R121). -/
theorem endsAlike_unlessHalted (s : State) (m : Memory) (t t' u : State) (ht : EndsAlike s m t t')
    (h : unlessHalted s t = .next u) :
    ∃ u', unlessHalted (setMem s m) t' = .next u' ∧ EndsAlike s m u u' := by
  rcases unlessHalted_next s t u h with ⟨hh, rfl⟩ | ⟨hh, rfl⟩
  · exact ⟨setMem u m, unlessHalted_halted _ t' hh, endsAlike_of_mem_eq u u m rfl⟩
  · exact ⟨t', unlessHalted_running _ t' hh, ht⟩

/-- A command ends alike from two memories that agree on the readable bytes (R42). -/
theorem endsAlike_exec (i : Instr) (s t : State) (m : Memory) (hs : s.mem.wf) (hm : m.wf)
    (hagree : AgreesOnReadable s m) (h : exec i s = .next t) :
    ∃ t', exec i (setMem s m) = .next t' ∧ EndsAlike s m t t' := by
  rw [exec_eq_checked] at h
  rw [exec_eq_checked, commandFault_congr i s m hagree]
  exact endsAlike_unlessHalted s m _ _ t (endsAlike_checked s m _ _ _ fun hclear =>
    endsAlike_commandEffect i s m (commandReady_of_clear i s hclear) hs hm hagree) h

/-- A CMD write ends alike from two memories that agree on the readable bytes (R42). -/
theorem endsAlike_cmdWrite (s t : State) (w : Word) (m : Memory) (hs : s.mem.wf) (hm : m.wf)
    (hagree : AgreesOnReadable s m) (h : cmdWrite s w = .next t) :
    ∃ t', cmdWrite (setMem s m) w = .next t' ∧ EndsAlike s m t t' := by
  cases hd : decode w with
  | command i =>
    rw [cmdWrite_command _ w i hd] at h ⊢
    exact endsAlike_exec i s t m hs hm hagree h
  | illegal why =>
    rw [cmdWrite_illegal _ w why hd] at h ⊢
    exact endsAlike_unlessHalted s m _ _ t (endsAlike_of_mem_eq s (raiseFault s .illegal) m rfl) h

/-- Settles O37: a command that completes depends on its source bytes only, which passed the BUS check, and the
checks read the header byte only where it is admitted. -/
theorem commandsReadOnlyReadableBytes : Obligations.CommandsReadOnlyReadableBytes := by
  unfold Obligations.CommandsReadOnlyReadableBytes
  intro s t w m hs hm hagree h
  obtain ⟨t', hnext, halike, hbytes⟩ := endsAlike_cmdWrite s t w m hs hm hagree h
  exact ⟨t'.mem, hnext.trans (congrArg Host.Outcome.next halike), hbytes⟩

/-! ### The host's accesses and the register commands -/

/-- A step whose next action is a byte-memory write stores the byte (R41, R58). -/
theorem step_memWrite (s : State) (a : Word) (b : Byte) (rest : List HostAction)
    (h : s.pending = .memWrite a b :: rest) :
    step s = .next (setMem (setPending s rest) (memWrite s.mem a.toNat b)) := by
  unfold step nextAction
  rw [h]
  rfl

/-- A step whose next action is a byte-memory read records the byte (R41, R58). -/
theorem step_memRead (s : State) (a : Word) (rest : List HostAction)
    (h : s.pending = .memRead a :: rest) :
    step s = .next (logMemRead (setPending s rest) (memRead s.mem a.toNat)) := by
  unfold step nextAction
  rw [h]
  rfl

/-- Settles O27, by the laws of `memWrite` on a canonical memory. -/
theorem hostMemoryAccessesReachOneByte : Obligations.HostMemoryAccessesReachOneByte := by
  unfold Obligations.HostMemoryAccessesReachOneByte
  intro s a b rest hm
  exact ⟨fun hp => ⟨memWrite s.mem a.toNat b, step_memWrite s a b rest hp,
    memWrite_wf s.mem a.toNat b hm a.isLt, fun x => memRead_memWrite s.mem a.toNat x b hm⟩,
    step_memRead s a rest⟩

/-- Settles O28: a register command has no checks, so it is discarded or has its effect. -/
theorem registerCommandsFrame : Obligations.RegisterCommandsFrame := by
  unfold Obligations.RegisterCommandsFrame
  intro i s t hi h
  rw [exec_eq_checked] at h
  rcases unlessHalted_next s _ t h with ⟨-, rfl⟩ | ⟨-, rfl⟩
  · exact ⟨rfl, fun _ => rfl, fun _ => rfl⟩
  · rcases hi with rfl | ⟨x, rfl⟩ | ⟨code, rfl⟩
    · exact ⟨rfl, fun _ => rfl, fun _ => rfl⟩
    · exact ⟨rfl, nofun, fun _ => rfl⟩
    · exact ⟨rfl, nofun, fun _ => rfl⟩

end Sys2Proof.Machine

/-!
PROOFS. The encoding (30_encoding.md): encoder and decoder as inverses (R72, R78), the illegal words (R70), the
assembler's operand ranges (R74), and the pseudo-instructions SNAPSHOT and RESTORE run from their host actions
(R76). A word with RSV = 0 is its fields packed again (`packWord_fields`), and `decode_eq_command` says once
what the decoder reads.
-/

namespace Sys2Proof.Machine

open Sys2Proof.Safety

/-! ### The fields of a packed word (R62) -/

@[simp] theorem fieldOp_packWord (op : BitVec 4) (h : Bool) (data : BitVec 16) :
    fieldOp (packWord op h data) = op := by
  apply BitVec.eq_of_toNat_eq
  have hbit := h.toNat_lt
  have hdata := data.isLt
  rw [fieldOp_toNat, packWord_toNat]
  omega

@[simp] theorem fieldH_packWord (op : BitVec 4) (h : Bool) (data : BitVec 16) :
    fieldH (packWord op h data) = h := by
  have hbit := h.toNat_lt
  have hdata := data.isLt
  have hnat : (fieldH (packWord op h data)).toNat = h.toNat := by
    rw [fieldH_toNat, packWord_toNat]
    omega
  cases h with
  | false => exact Bool.toNat_eq_zero.mp hnat
  | true => exact Bool.toNat_eq_one.mp hnat

@[simp] theorem fieldRsv_packWord (op : BitVec 4) (h : Bool) (data : BitVec 16) :
    fieldRsv (packWord op h data) = 0 := by
  apply BitVec.eq_of_toNat_eq
  have hbit := h.toNat_lt
  have hdata := data.isLt
  rw [fieldRsv_toNat, packWord_toNat]
  change _ = 0
  omega

@[simp] theorem fieldData_packWord (op : BitVec 4) (h : Bool) (data : BitVec 16) :
    fieldData (packWord op h data) = data := by
  apply BitVec.eq_of_toNat_eq
  have hdata := data.isLt
  rw [fieldData_toNat, packWord_toNat]
  omega

/-- A DECSTEP word's code is the low four bits of DATA (R66). -/
theorem fieldCode_eq (w : Word) : fieldCode w = (fieldData w).setWidth 4 := by
  apply BitVec.eq_of_toNat_eq
  rw [BitVec.toNat_setWidth, fieldData_toNat, fieldCode, BitVec.extractLsb'_toNat, Nat.shiftRight_zero]
  omega

/-- A word whose RSV is 0 is its other fields packed again (R62). -/
theorem packWord_fields (w : Word) (h : fieldRsv w = 0) :
    packWord (fieldOp w) (fieldH w) (fieldData w) = w := by
  apply BitVec.eq_of_toNat_eq
  have hrsv : w.toNat / 2 ^ 16 % 2 ^ 11 = 0 := by rw [← fieldRsv_toNat, h]; rfl
  rw [packWord_toNat, fieldOp_toNat, fieldH_toNat, fieldData_toNat]
  omega

/-! ### Encoder and decoder (R72, R78) -/

/-- The decoder reads back every command the encoder writes. -/
@[simp] theorem decode_encode (i : Instr) : decode (encode i) = .command i := by
  cases i with
  | reset => simp [encode, decode]
  | encstep sample => simp [encode, decode]
  | decstep code => simp [encode, decode, fieldCode_eq]
  | enc header => simp [encode, decode]
  | dec header => simp [encode, decode]

/-- All that the decoder reads a command from: the command, and the fields of its word (R64 to R68). -/
theorem decode_eq_command (w : Word) (i : Instr) (h : decode w = .command i) :
    fieldRsv w = 0 ∧
      ((i = .reset ∧ fieldOp w = 1 ∧ fieldH w = false ∧ fieldData w = 0) ∨
        (i = .encstep (fieldData w) ∧ fieldOp w = 2 ∧ fieldH w = false) ∨
        (i = .decstep (fieldCode w) ∧ fieldOp w = 3 ∧ fieldH w = false) ∨
        (i = .enc (fieldH w) ∧ fieldOp w = 4 ∧ fieldData w = 0) ∨
        (i = .dec (fieldH w) ∧ fieldOp w = 5 ∧ fieldData w = 0)) := by
  unfold decode at h
  split_ifs at h with hrsv hreset hh hdata hencstep hh hdecstep hh henc hdata hdec hdata <;> cases h <;>
    refine ⟨not_not.mp hrsv, ?_⟩
  · exact .inl ⟨rfl, hreset, Bool.eq_false_of_not_eq_true hh, hdata⟩
  · exact .inr (.inl ⟨rfl, hencstep, Bool.eq_false_of_not_eq_true hh⟩)
  · exact .inr (.inr (.inl ⟨rfl, hdecstep, Bool.eq_false_of_not_eq_true hh⟩))
  · exact .inr (.inr (.inr (.inl ⟨rfl, henc, hdata⟩)))
  · exact .inr (.inr (.inr (.inr ⟨rfl, hdec, hdata⟩)))

/-! ### DECSTEP's ignored bits (R66) -/

/-- What is left of a DECSTEP word when its ignored bits 15..4 are cleared. `encode_decstep_fieldCode` ties
it to the encoder. -/
def clearIgnored (w : Word) : Word := w &&& 0xFFFF000F#32

@[simp] theorem fieldOp_clearIgnored (w : Word) : fieldOp (clearIgnored w) = fieldOp w := by
  unfold fieldOp clearIgnored
  rw [BitVec.extractLsb'_and]
  exact BitVec.and_allOnes

@[simp] theorem fieldH_clearIgnored (w : Word) : fieldH (clearIgnored w) = fieldH w := by
  unfold fieldH clearIgnored
  rw [BitVec.getLsbD_and]
  exact Bool.and_true _

@[simp] theorem fieldRsv_clearIgnored (w : Word) : fieldRsv (clearIgnored w) = fieldRsv w := by
  unfold fieldRsv clearIgnored
  rw [BitVec.extractLsb'_and]
  exact BitVec.and_allOnes

@[simp] theorem fieldData_clearIgnored (w : Word) :
    fieldData (clearIgnored w) = (fieldCode w).setWidth 16 := by
  have hmask : fieldData (clearIgnored w) = fieldData w &&& 0xF#16 := BitVec.extractLsb'_and
  have hlow : w.toNat % 2 ^ 16 &&& 2 ^ 4 - 1 = w.toNat % 2 ^ 16 % 2 ^ 4 :=
    Nat.and_two_pow_sub_one_eq_mod _ 4
  apply BitVec.eq_of_toNat_eq
  rw [hmask, fieldCode_eq, BitVec.toNat_and, BitVec.toNat_setWidth, BitVec.toNat_setWidth, fieldData_toNat]
  change w.toNat % 2 ^ 16 &&& 2 ^ 4 - 1 = _
  omega

/-- Encoding a DECSTEP word's command gives the word back with its ignored bits cleared (R78). -/
theorem encode_decstep_fieldCode (w : Word) (hrsv : fieldRsv w = 0) (hop : fieldOp w = 3)
    (hh : fieldH w = false) : encode (.decstep (fieldCode w)) = clearIgnored w := by
  have hpack := packWord_fields (clearIgnored w) (by rw [fieldRsv_clearIgnored, hrsv])
  rwa [fieldOp_clearIgnored, fieldH_clearIgnored, fieldData_clearIgnored, hop, hh] at hpack

/-! ### The assembler (R74) -/

theorem assemble_of_inRange (c : AsmCommand) (h : asmInRange c = true) :
    assemble c = some (encode (asmInstr c)) := if_pos h

theorem assemble_of_outOfRange (c : AsmCommand) (h : ¬ asmInRange c = true) : assemble c = none :=
  if_neg h

/-- The word of an assembler form is the encoding of its command. -/
theorem eq_encode_of_assemble (c : AsmCommand) (w : Word) (h : assemble c = some w) :
    w = encode (asmInstr c) := by
  by_cases hc : asmInRange c = true
  · rw [assemble_of_inRange c hc] at h
    exact (Option.some.inj h).symm
  · rw [assemble_of_outOfRange c hc] at h
    cases h

/-- Settles O2: a word that decodes to a command is its fields packed again (`packWord_fields`), and the encoder
packs the same fields, but for DECSTEP's ignored bits. -/
theorem decodeAndEncodeAgree : Obligations.DecodeAndEncodeAgree := by
  unfold Obligations.DecodeAndEncodeAgree
  refine ⟨decode_encode, fun w i hd => ?_, fun c w hc => ?_⟩
  · obtain ⟨hrsv, hcase⟩ := decode_eq_command w i hd
    have hw := packWord_fields w hrsv
    rcases hcase with ⟨rfl, hop, hh, hdata⟩ | ⟨rfl, hop, hh⟩ | ⟨rfl, hop, hh⟩ | ⟨rfl, hop, hdata⟩ |
      ⟨rfl, hop, hdata⟩
    · exact .inr ⟨nofun, by rwa [hop, hh, hdata] at hw⟩
    · exact .inr ⟨nofun, by rwa [hop, hh] at hw⟩
    · exact .inl ⟨⟨_, rfl⟩, encode_decstep_fieldCode w hrsv hop hh⟩
    · exact .inr ⟨nofun, by rwa [hop, hdata] at hw⟩
    · exact .inr ⟨nofun, by rwa [hop, hdata] at hw⟩
  · rw [eq_encode_of_assemble c w hc, decode_encode]

/-! ### The illegal words (R70) -/

/-- The decoder rejects the words that are not legal and no other (R70, R71). -/
theorem decode_illegal_iff_legalWord_eq_false (w : Word) :
    (∃ why, decode w = .illegal why) ↔ legalWord w = false := by
  refine ⟨fun ⟨why, hd⟩ => ?_, decode_of_not_legalWord w⟩
  rw [← Bool.not_eq_true, ← decode_command_iff_legalWord]
  rintro ⟨i, hi⟩
  simp [hd] at hi

/-- A word is not legal when one of R70's four conditions holds. -/
theorem legalWord_eq_false_iff_illegal (w : Word) :
    legalWord w = false ↔
      illegalOp w = true ∨ illegalRsv w = true ∨ illegalH w = true ∨ illegalData w = true := by
  simp only [legalWord, Bool.and_eq_false_iff, Bool.not_eq_false', or_assoc]

/-- R70's four conditions on the word as a number. -/
theorem legalWord_eq_false_iff (w : Word) :
    legalWord w = false ↔
      (w.toNat / 2 ^ 28 = 0 ∨ 6 ≤ w.toNat / 2 ^ 28) ∨
      w.toNat / 2 ^ 16 % 2 ^ 11 ≠ 0 ∨
      (w.toNat / 2 ^ 27 % 2 = 1 ∧ w.toNat / 2 ^ 28 ∈ [1, 2, 3]) ∨
      (w.toNat % 2 ^ 16 ≠ 0 ∧ w.toNat / 2 ^ 28 ∈ [1, 4, 5]) := by
  have hop : (1 ≤ w.toNat / 2 ^ 28 ∧ w.toNat / 2 ^ 28 ≤ 3) ↔ w.toNat / 2 ^ 28 ∈ [1, 2, 3] := by
    simp only [List.mem_cons, List.not_mem_nil, or_false]
    omega
  rw [legalWord_eq_false_iff_illegal, ← hop]
  simp only [illegalOp, illegalRsv, illegalH, illegalData, Bool.or_eq_true, Bool.and_eq_true,
    decide_eq_true_eq, List.mem_cons, List.not_mem_nil, or_false, or_assoc]

/-- Settles O3: the decoder's rejections by `decode_illegal_iff_legalWord_eq_false`, the fault by
`cmdWrite_illegal`. -/
theorem illegalWordsFault : Obligations.IllegalWordsFault := by
  unfold Obligations.IllegalWordsFault
  intro w
  refine ⟨decode_illegal_iff_legalWord_eq_false w, legalWord_eq_false_iff w, fun s hs hw => ?_⟩
  obtain ⟨why, hd⟩ := decode_of_not_legalWord w hw
  exact (cmdWrite_illegal s w why hd).trans (unlessHalted_running s _ hs)

/-! ### The operand ranges (R74) -/

/-- A DECSTEP word as a number: OP 3, its code in DATA[3:0] and every other bit 0 (R66, R74). -/
theorem encode_decstep_toNat (code : Code) :
    (encode (.decstep code)).toNat = 3 * 2 ^ 28 + code.toNat := by
  have hlow := code.isLt
  have hpack : (encode (.decstep code)).toNat = 3 * 2 ^ 28 + 0 * 2 ^ 27 + (code.setWidth 16).toNat :=
    packWord_toNat 3 false (code.setWidth 16)
  rw [hpack, BitVec.toNat_setWidth]
  omega

/-- Settles O5: an operand in range is the number its pattern stands for, so `decode_encode` gives it back. -/
theorem assemblerTakesOperandsInRange : Obligations.AssemblerTakesOperandsInRange := by
  unfold Obligations.AssemblerTakesOperandsInRange
  refine ⟨?decimal, ?noDecimal, ?pattern, ?noPattern, ?code, ?noCode⟩
  case decimal =>
    intro v hv
    exact ⟨_, _, assemble_of_inRange (.encstep v) (by simpa [asmInRange] using hv), decode_encode _,
      int16_bits16 v hv⟩
  case noDecimal =>
    exact fun v hv => assemble_of_outOfRange (.encstep v) (by simpa [asmInRange] using hv)
  case pattern =>
    intro n hn
    exact ⟨_, _, assemble_of_inRange (.encstepHex n) (by simpa [asmInRange] using hn), decode_encode _,
      (BitVec.toNat_ofNat n 16).trans (Nat.mod_eq_of_lt (by omega))⟩
  case noPattern =>
    exact fun n hn => assemble_of_outOfRange (.encstepHex n) (by simpa [asmInRange] using hn)
  case code =>
    intro n hn
    have hcode : (BitVec.ofNat 4 n).toNat = n :=
      (BitVec.toNat_ofNat n 4).trans (Nat.mod_eq_of_lt (by omega))
    refine ⟨_, _, assemble_of_inRange (.decstep n) (by simpa [asmInRange] using hn), decode_encode _,
      hcode, ?_⟩
    rw [asmInstr, encode_decstep_toNat, hcode]
    omega
  case noCode =>
    exact fun n hn => assemble_of_outOfRange (.decstep n) (by simpa [asmInRange] using hn)

/-- Settles O1: the decoder run on each word. -/
theorem specWordsDecode : Obligations.SpecWordsDecode := by
  unfold Obligations.SpecWordsDecode
  decide

/-! ### Runs of host actions (R59) -/

/-- A run goes on from the state its first step leaves. -/
theorem run_succ (M : Host.Core) (s t : M.State) (k : Nat) (h : M.step s = .next t) :
    M.run (k + 1) s = M.run k t := by
  simp only [Host.Core.run, h]

/-- A run of one step is the step. -/
theorem run_one (M : Host.Core) (s : M.State) : M.run 1 s = M.step s := by
  simp only [Host.Core.run]
  cases M.step s <;> rfl

/-- A run whose next action is `WR` of a register other than CMD performs the write and goes on (R37, R75). -/
theorem run_wrAction (s : State) (r : WReg) (w : Word) (rest : List HostAction) (k : Nat) (hr : r ≠ .cmd)
    (hp : s.pending = wrAction s.params r w :: rest) :
    Host.Core.run core (k + 1) s = Host.Core.run core k (writeWindow (setPending s rest) w r) :=
  run_succ core s _ k ((step_windowWrite s r w rest hp).trans (windowWrite_argument _ w r hr))

/-- A run of one step whose next action writes a command's word to CMD runs that command (R28, R78). -/
theorem run_command (s : State) (i : Instr) (rest : List HostAction)
    (hp : s.pending = wrAction s.params .cmd (encode i) :: rest) :
    Host.Core.run core 1 s = exec i (setPending s rest) :=
  (run_one core s).trans ((step_windowWrite s .cmd (encode i) rest hp).trans
    (cmdWrite_command _ _ i (decode_encode i)))

/-! ### SNAPSHOT (R76) -/

/-- The state in which SNAPSHOT's ENC.H starts: DST, LEN and DSTCAP written. `run_snapshot` ties it to the run. -/
def snapshotStart (s : State) (addr : Word) (rest : List HostAction) : State :=
  { s with pending := rest, dst := addr, len := 0, dstcap := 4 }

/-- SNAPSHOT's four host actions are ENC.H from `snapshotStart`. -/
theorem run_snapshot (s : State) (addr : Word) (rest : List HostAction)
    (hp : s.pending = expandLine s.params (.snapshot addr) ++ rest) :
    Host.Core.run core 4 s = exec (.enc true) (snapshotStart s addr rest) := by
  rw [run_wrAction s .dst addr _ 3 nofun hp, run_wrAction _ .len 0 _ 2 nofun rfl,
    run_wrAction _ .dstcap 4 _ 1 nofun rfl, run_command _ (.enc true) rest rfl]
  rfl

theorem pairs_snapshotStart (s : State) (addr : Word) (rest : List HostAction) :
    (snapshotStart s addr rest).len.toNat / 2 = 0 := by
  have hlen : (snapshotStart s addr rest).len.toNat = 0 := rfl
  rw [hlen, Nat.zero_div]

/-- SNAPSHOT's ENC.H writes the header alone (R98). -/
theorem encSize_snapshotStart (s : State) (addr : Word) (rest : List HostAction) :
    encSize true (snapshotStart s addr rest) = 4 :=
  congrArg (4 + ·) (pairs_snapshotStart s addr rest)

/-- SNAPSHOT's ENC.H is ready when four bytes are writable at the address: it reads no sample (R99). -/
theorem encReady_snapshotStart (s : State) (addr : Word) (rest : List HostAction)
    (h : RangeOk s.params.writable addr.toNat 4) : EncReady true (snapshotStart s addr rest) := by
  have hsize := encSize_snapshotStart s addr rest
  have hpairs := pairs_snapshotStart s addr rest
  unfold EncReady EncAdmitted EncApart
  rw [hsize, hpairs]
  exact ⟨le_refl 4, ⟨.inl rfl, h⟩, .inl rfl⟩

/-- SNAPSHOT's ENC.H encodes no sample, so it leaves the Codec State (R95, R99). -/
theorem encEffect_snapshotStart_codec (s : State) (addr : Word) (rest : List HostAction) :
    (encEffect true (snapshotStart s addr rest)).codec = s.codec := by
  unfold encEffect
  simp only [encPairs_bufferArgs, pairs_snapshotStart]
  rfl

/-- The two bytes of a sample as a number (R44, R101). -/
theorem sampleHigh_sampleLow_toNat (v : Sample) :
    256 * (sampleHigh v).toNat + (sampleLow v).toNat = v.toNat := by
  have h : (sampleOf (sampleHigh v) (sampleLow v)).toNat =
      (sampleHigh v).toNat * 2 ^ 8 + (sampleLow v).toNat := toNat_append_add 8 8 _ _
  rw [sampleOf_high_low] at h
  omega

/-- Settles O42: SNAPSHOT is ENC.H of no samples, which writes the header and nothing else. -/
theorem snapshotWritesTheHeader : Obligations.SnapshotWritesTheHeader := by
  unfold Obligations.SnapshotWritesTheHeader
  intro s addr rest hs hm hrange hp
  have hready := encReady_snapshotStart s addr rest hrange
  have hsize := encSize_snapshotStart s addr rest
  have hfits : addr.toNat + 4 ≤ Config.addressSpace := rangeOk_fits _ _ _ addr.toNat hrange (by omega)
  have hheader := encEffect_header (snapshotStart s addr rest) hm (by rw [hsize]; exact hfits)
  refine ⟨encEffect true (snapshotStart s addr rest),
    (run_snapshot s addr rest hp).trans (execEnc_ready true _ hs hready),
    encEffect_snapshotStart_codec s addr rest, ?result, rfl, (not_halted_iff s).mp hs, ?sample, ?index,
    hheader 3 (by omega), ?other⟩
  case result => rw [encEffect_result, hsize]; rfl
  case other =>
    intro a ha
    exact encEffect_mem_other true (snapshotStart s addr rest) a (by rw [hsize]; exact ha)
  case sample =>
    have h0 := hheader 0 (by omega)
    have h1 := hheader 1 (by omega)
    rw [← sampleHigh_sampleLow_toNat]
    exact congrArg₂ (fun high low : Byte => 256 * high.toNat + low.toNat) h0 h1
  case index =>
    have hidx := s.codec.stepIdx.isLt
    refine (congrArg BitVec.toNat (hheader 2 (by omega))).trans ?_
    change (s.codec.stepIdx.setWidth 8).toNat = _
    rw [BitVec.toNat_setWidth]
    omega

/-! ### RESTORE (R76) -/

/-- The state in which RESTORE's DEC.H starts: SRC, LEN and DSTCAP written. `run_restore` ties it to the run. -/
def restoreStart (s : State) (addr : Word) (rest : List HostAction) : State :=
  { s with pending := rest, src := addr, len := 0, dstcap := 0 }

/-- RESTORE's four host actions are DEC.H from `restoreStart`. -/
theorem run_restore (s : State) (addr : Word) (rest : List HostAction)
    (hp : s.pending = expandLine s.params (.restore addr) ++ rest) :
    Host.Core.run core 4 s = exec (.dec true) (restoreStart s addr rest) := by
  rw [run_wrAction s .src addr _ 3 nofun hp, run_wrAction _ .len 0 _ 2 nofun rfl,
    run_wrAction _ .dstcap 0 _ 1 nofun rfl, run_command _ (.dec true) rest rfl]
  rfl

/-- RESTORE's DEC.H passes the BUS check when four bytes are readable at the address: it writes none (R105). -/
theorem decAdmitted_restoreStart (s : State) (addr : Word) (rest : List HostAction)
    (h : RangeOk s.params.readable addr.toNat 4) : DecAdmitted true (restoreStart s addr rest) :=
  ⟨h, .inl rfl⟩

/-- DEC.H whose other checks pass faults HDRSTEP on a header whose index is out of range (R116, R119). -/
theorem execDec_hdrstep (header : Bool) (s : State) (hh : halted s = false)
    (hsize : decSize s ≤ s.dstcap.toNat) (hadmitted : DecAdmitted header s) (hapart : DecApart header s)
    (hheader : ¬ HeaderOk header s) : execDec header s = .next (raiseFault s .hdrstep) := by
  have hfault : decFault header s = .hdrstep := by
    rcases decFault_cases header s with ⟨h, -⟩ | ⟨-, h, -⟩ | ⟨-, -, h, -⟩ | ⟨-, -, -, -, h⟩ |
      ⟨⟨-, -, -, h⟩, -⟩
    · omega
    · exact absurd hadmitted h
    · exact absurd hapart h
    · exact h
    · exact absurd h hheader
  rw [execDec, hfault, checked_fault s _ .hdrstep nofun]
  exact unlessHalted_running s _ hh

/-- Settles O43: RESTORE is DEC.H of no payload, which loads the header or faults HDRSTEP. -/
theorem restoreLoadsTheHeader : Obligations.RestoreLoadsTheHeader := by
  unfold Obligations.RestoreLoadsTheHeader
  intro s addr rest hs hrange hp
  have hadmitted := decAdmitted_restoreStart s addr rest hrange
  have hsize : decSize (restoreStart s addr rest) ≤ (restoreStart s addr rest).dstcap.toNat := le_refl 0
  have hapart : DecApart true (restoreStart s addr rest) := .inr (.inl rfl)
  by_cases hidx : (memRead s.mem (addr.toNat + 2)).toNat ≤ 88
  · refine ⟨decEffect true (restoreStart s addr rest),
      (run_restore s addr rest hp).trans
        (execDec_ready true _ hs ⟨hsize, hadmitted, hapart, fun _ => hidx⟩), rfl, rfl,
      fun _ => ⟨(not_halted_iff s).mp hs, rfl, ?_, ?_⟩, fun hbad => by omega⟩
    · exact codecOfHeader_lastSample_toNat _ _ _
    · exact codecOfHeader_stepIdx_toNat _ _ _ hidx
  · refine ⟨raiseFault (restoreStart s addr rest) .hdrstep,
      (run_restore s addr rest hp).trans
        (execDec_hdrstep true _ hs hsize hadmitted hapart fun hok => hidx (hok rfl)), rfl, rfl,
      fun hgood => absurd hgood hidx, fun _ => ⟨rfl, rfl, rfl⟩⟩

end Sys2Proof.Machine

/-!
PROOFS. The Codec State command (40_codec_state.md): RESET (R79, R80) behind the halt (R121).
-/

namespace Sys2Proof.Machine

/-- RESET has no checks (R79): behind the halt it only writes the Codec State. -/
theorem exec_reset (s : State) : exec .reset s = unlessHalted s (setCodec s Codec.reset) := rfl

/-- Settles O9: running, RESET has its one effect; halted, it is discarded like every command. -/
theorem resetCommandWritesOnlyCodecState : Obligations.ResetCommandWritesOnlyCodecState := by
  unfold Obligations.ResetCommandWritesOnlyCodecState
  intro s
  constructor
  · intro hrunning
    calc exec .reset s
        = unlessHalted s (setCodec s Codec.reset) := exec_reset s
      _ = .next (setCodec s Codec.reset) := unlessHalted_running s _ hrunning
      _ = .next { s with codec := { stepIdx := 0, lastSample := 0 } } := rfl
  · exact exec_halted .reset s

end Sys2Proof.Machine

/-!
PROOFS. The step engine (41_step_engine.md): the integer forms of DECODE_STEP (R86) and ENCODE_STEP (R84),
ENCSTEP and DECSTEP (R90 to R93), the ranges of R89, and the step functions in 32-bit signed arithmetic. The
greedy tests of the encoder are read once, as the four bits of `packBits`; the unbounded and the 32-bit
encoder are both shown to pack the same tests.
-/

namespace Sys2Proof.Machine

open Sys2Proof.Safety

/-! ### ENCSTEP and DECSTEP of a running block (R90, R91) -/

/-- A command of a running block whose checks find no fault has its effect (R119, R134). -/
theorem exec_running (i : Instr) (s : State) (hs : halted s = false) (hf : commandFault i s = .clear) :
    exec i s = .next (commandEffect i s) := by
  rw [exec_eq_checked, checked_clear _ _ _ hf, unlessHalted_running _ _ hs]

/-- ENCSTEP has no checks (R90). -/
theorem exec_encstep_running (s : State) (x : Sample) (hs : halted s = false) :
    exec (.encstep x) s = .next (commandEffect (.encstep x) s) := exec_running _ s hs rfl

/-- DECSTEP has no checks (R91). -/
theorem exec_decstep_running (s : State) (code : Code) (hs : halted s = false) :
    exec (.decstep code) s = .next (commandEffect (.decstep code) s) := exec_running _ s hs rfl

@[simp] theorem commandEffect_encstep_codec (x : Sample) (s : State) :
    (commandEffect (.encstep x) s).codec = (encodeStep s.params.tables s.codec x).2 := rfl

@[simp] theorem commandEffect_encstep_result (x : Sample) (s : State) :
    (commandEffect (.encstep x) s).result = (encodeStep s.params.tables s.codec x).1.setWidth 32 := rfl

@[simp] theorem commandEffect_decstep_codec (code : Code) (s : State) :
    (commandEffect (.decstep code) s).codec = (decodeStep s.params.tables s.codec code).2 := rfl

@[simp] theorem commandEffect_decstep_result (code : Code) (s : State) :
    (commandEffect (.decstep code) s).result = bits32 (decodeStep s.params.tables s.codec code).1 := rfl

/-! ### The fields of a code (R14) -/

@[simp] theorem codeMagnitude_toNat (code : Code) : (codeMagnitude code).toNat = code.toNat % 8 := by
  simp [codeMagnitude]

theorem codeSign_iff (code : Code) : codeSign code = true ↔ 8 ≤ code.toNat := by
  revert code
  decide

/-! ### DECODE_STEP in the integers (R86) -/

theorem clamp_eq_max_min (v lo hi : Int) (h : lo ≤ hi) : clamp v lo hi = max lo (min hi v) := by
  unfold clamp
  split
  · omega
  · split <;> omega

/-- `mag` before its sign: the numerator divided by 8, rounding down (R86, R87). -/
def magnitudeOf (ss : Nat) (code : Code) : Nat := (code.toNat % 8 * 2 + 1) * ss / 8

/-- The sign is applied after the shift (R87). -/
theorem decodeMag_eq (ss : Nat) (code : Code) :
    decodeMag ss code = if codeSign code then -(magnitudeOf ss code : Int) else magnitudeOf ss code := by
  simp only [decodeMag, magnitudeOf, codeMagnitude_toNat, Nat.shiftRight_eq_div_pow, Nat.reducePow]

theorem decodeStep_recon (t : Tables) (c : Codec) (code : Code) :
    (decodeStep t c code).1 =
      clamp (c.lastSample.toInt + decodeMag (stepSizeAt t c.stepIdx) code) (-32768) 32767 := rfl

theorem decodeStep_lastSample_toInt (t : Tables) (c : Codec) (code : Code) :
    (decodeStep t c code).2.lastSample.toInt = (decodeStep t c code).1 := by
  rw [decodeStep_lastSample]
  exact int16_bits16 _ (decodeStep_recon_range t c code)

theorem stepAdjustAt_eq (t : Tables) (code : Code) :
    stepAdjustAt t code = t.stepAdjust[code.toNat % 8] := by
  simp only [stepAdjustAt, codeMagnitude_toNat]

/-- Settles O10: the clamps are the statement's `max` and `min`, and the table entry, `mag` and the
adjustment are read by their lemmas. -/
theorem decstepReconstructs : Obligations.DecstepReconstructs := by
  unfold Obligations.DecstepReconstructs
  intro s code hidx hs idx ss low3 mag recon idx'
  have hmag : decodeMag (stepSizeAt s.params.tables s.codec.stepIdx) code = mag := by
    simp only [decodeMag_eq, stepSizeAt_inside _ _ hidx, codeSign_iff, magnitudeOf]
    rfl
  have hrecon : (decodeStep s.params.tables s.codec code).1 = recon := by
    rw [decodeStep_recon, hmag, clamp_eq_max_min _ _ _ (by omega)]
  have hidx' : ((decodeStep s.params.tables s.codec code).2.stepIdx.toNat : Int) = idx' := by
    rw [decodeStep_stepIdx, stepAdjustAt_eq, clamp_eq_max_min _ _ _ (by omega)]
  refine ⟨(decodeStep s.params.tables s.codec code).2, hidx', ?_, ?_⟩
  · rw [decodeStep_lastSample_toInt, hrecon]
  · rw [exec_decstep_running s code hs, ← hrecon]
    rfl

/-! ### The greedy tests of ENCODE_STEP (R84) -/

/-- What a test against `q` leaves of the magnitude `d` (R84). -/
def afterTest (q d : Nat) : Nat := if q ≤ d then d - q else d

theorem afterTest_le (q d : Nat) : afterTest q d ≤ d := by
  unfold afterTest
  split <;> omega

theorem afterTest_eq_sub (q d : Nat) : afterTest q d = d - (if q ≤ d then 1 else 0) * q := by
  unfold afterTest
  split <;> simp

/-- The code with bits 3 to 0 given (R14). -/
def packBits (b3 b2 b1 b0 : Bool) : Code :=
  BitVec.ofBool b3 ++ BitVec.ofBool b2 ++ BitVec.ofBool b1 ++ BitVec.ofBool b0

theorem packBits_eq_or (p3 p2 p1 p0 : Prop) [Decidable p3] [Decidable p2] [Decidable p1] [Decidable p0] :
    ((if p3 then 8 else 0) ||| (if p2 then 4 else 0) ||| (if p1 then 2 else 0) |||
      (if p0 then 1 else 0) : Code) = packBits (decide p3) (decide p2) (decide p1) (decide p0) := by
  have hbits : ∀ b3 b2 b1 b0 : Bool, ((if b3 then 8 else 0) ||| (if b2 then 4 else 0) |||
      (if b1 then 2 else 0) ||| (if b0 then 1 else 0) : Code) = packBits b3 b2 b1 b0 := by decide
  simpa using hbits (decide p3) (decide p2) (decide p1) (decide p0)

theorem packBits_toNat (p3 p2 p1 p0 : Prop) [Decidable p3] [Decidable p2] [Decidable p1] [Decidable p0] :
    (packBits (decide p3) (decide p2) (decide p1) (decide p0)).toNat =
      8 * (if p3 then 1 else 0) + 4 * (if p2 then 1 else 0) + 2 * (if p1 then 1 else 0) +
        (if p0 then 1 else 0) := by
  have hbits : ∀ b3 b2 b1 b0 : Bool, (packBits b3 b2 b1 b0).toNat = 8 * (if b3 then 1 else 0) +
      4 * (if b2 then 1 else 0) + 2 * (if b1 then 1 else 0) + (if b0 then 1 else 0) := by decide
  simpa using hbits (decide p3) (decide p2) (decide p1) (decide p0)

/-- ENCODE_STEP's code is its sign and its three tests, each on what the test before it left (R84). -/
theorem encodeCode_eq_packBits (ss : Nat) (diff : Int) :
    encodeCode ss diff =
      packBits (diff < 0) (ss ≤ diff.natAbs) (ss / 2 ≤ afterTest ss diff.natAbs)
        (ss / 4 ≤ afterTest (ss / 2) (afterTest ss diff.natAbs)) := by
  have hquarter : ss / 4 = ss >>> 2 := (Nat.shiftRight_eq_div_pow ss 2).symm
  rw [← packBits_eq_or, hquarter]
  rfl

theorem encodeStep_code (t : Tables) (c : Codec) (x : Sample) :
    (encodeStep t c x).1 =
      encodeCode (stepSizeAt t c.stepIdx) (x.toInt - c.lastSample.toInt) := rfl

/-- Settles O11: the code is read bit by bit, and the Codec State is that of `encodeStep_codec`. -/
theorem encstepQuantizes : Obligations.EncstepQuantizes := by
  unfold Obligations.EncstepQuantizes
  intro s x hidx hs ss diff d bit3 bit2 d1 bit1 d2 bit0 code
  have hcode : (encodeStep s.params.tables s.codec x).1.toNat = code := by
    rw [encodeStep_code, stepSizeAt_inside _ _ hidx, encodeCode_eq_packBits, packBits_toNat,
      afterTest_eq_sub, afterTest_eq_sub]
  have hnibble : BitVec.ofNat 4 code = (encodeStep s.params.tables s.codec x).1 := by
    rw [← hcode, BitVec.ofNat_toNat, BitVec.setWidth_eq]
  have hresult : BitVec.ofNat 32 code = (encodeStep s.params.tables s.codec x).1.setWidth 32 := by
    rw [← hcode, BitVec.ofNat_toNat]
  refine ⟨_, _, exec_encstep_running s x hs, exec_decstep_running s _ hs, ?_⟩
  rw [hresult, hnibble]
  rfl

/-! ### Encoder and decoder follow each other (R92, R93) -/

/-- Settles O12: RESULT's low four bits are the code again, and the sample fits LAST_SAMPLE. -/
theorem encodeAndDecodeStepsTrackEachOther : Obligations.EncodeAndDecodeStepsTrackEachOther := by
  unfold Obligations.EncodeAndDecodeStepsTrackEachOther
  intro s x hs
  have hnibble : (commandEffect (.encstep x) s).result.extractLsb' 0 4 =
      (encodeStep s.params.tables s.codec x).1 := by
    simp [BitVec.extractLsb'_setWidth_of_le]
  refine ⟨_, _, exec_encstep_running s x hs, ?_, exec_decstep_running s _ hs, ?_, ?_⟩
  · have hcode := (encodeStep s.params.tables s.codec x).1.isLt
    rw [commandEffect_encstep_result, BitVec.toNat_setWidth]
    omega
  · rw [hnibble]
    exact (encodeStep_codec _ _ _).symm
  · rw [hnibble]
    exact congrArg bits32 (decodeStep_lastSample_toInt _ _ _).symm

/-- Settles O13: the effect of either command is a function of the tables and the Codec State. -/
theorem stepCommandsDependOnlyOnCodecState : Obligations.StepCommandsDependOnlyOnCodecState := by
  unfold Obligations.StepCommandsDependOnlyOnCodecState
  rintro s s' i (⟨x, rfl⟩ | ⟨code, rfl⟩) hcodec htables hs hs'
  · exact ⟨_, _, exec_encstep_running s x hs, exec_encstep_running s' x hs',
      by simp [hcodec, htables], by simp [hcodec, htables]⟩
  · exact ⟨_, _, exec_decstep_running s code hs, exec_decstep_running s' code hs',
      by simp [hcodec, htables], by simp [hcodec, htables]⟩

/-! ### The ranges of the intermediate values (R82, R89) -/

theorem defaultTables_stepSize_range :
    ∀ k : Fin 89, 7 ≤ defaultTables.stepSize[k].toNat ∧ defaultTables.stepSize[k].toNat ≤ 32767 := by
  decide

theorem stepSizeAt_defaultTables_range (idx : BitVec 7) (h : idx.toNat ≤ 88) :
    7 ≤ stepSizeAt defaultTables idx ∧ stepSizeAt defaultTables idx ≤ 32767 := by
  rw [stepSizeAt_inside _ _ (by omega)]
  exact defaultTables_stepSize_range ⟨idx.toNat, by omega⟩

/-- A bound that holds of every entry of STEP_ADJUST holds of the entry a code selects (R86). -/
theorem stepAdjustAt_range (t : Tables) (code : Code) (lo hi : Int)
    (h : ∀ k : Fin 8, lo ≤ t.stepAdjust[k] ∧ t.stepAdjust[k] ≤ hi) :
    lo ≤ stepAdjustAt t code ∧ stepAdjustAt t code ≤ hi :=
  h ⟨(codeMagnitude code).toNat, (codeMagnitude code).isLt⟩

/-- The numerator of `mag` is at most fifteen step sizes (R89). -/
theorem numerator_le (ss : Nat) (code : Code) : (code.toNat % 8 * 2 + 1) * ss ≤ 15 * ss :=
  Nat.mul_le_mul_right ss (by omega)

/-- `mag` is at most an eighth of fifteen step sizes, on either side of 0 (R89). -/
theorem decodeMag_natAbs_le (ss : Nat) (code : Code) : (decodeMag ss code).natAbs ≤ 15 * ss / 8 := by
  have hmag : magnitudeOf ss code ≤ 15 * ss / 8 := Nat.div_le_div_right (numerator_le ss code)
  rw [decodeMag_eq]
  split <;> omega

theorem int16_range (x : Sample) : -32768 ≤ int16 x ∧ int16 x ≤ 32767 :=
  ⟨x.le_toInt, Int.le_of_lt_add_one x.toInt_lt⟩

/-- Settles O15: each range follows from the ranges of the two tables and of a 16-bit sample. -/
theorem intermediateValuesStayInRange : Obligations.IntermediateValuesStayInRange := by
  unfold Obligations.IntermediateValuesStayInRange
  intro c x code hidx ss mag
  have hss : 7 ≤ ss ∧ ss ≤ 32767 := stepSizeAt_defaultTables_range c.stepIdx hidx
  have hnum : ((codeMagnitude code).toNat * 2 + 1) * ss ≤ 15 * ss := by
    rw [codeMagnitude_toNat]
    exact numerator_le ss code
  have hmag : mag.natAbs ≤ 15 * ss / 8 := decodeMag_natAbs_le ss code
  have hadjust := stepAdjustAt_range defaultTables code (-1) 8 (by decide)
  have hx := int16_range x
  have hlast := int16_range c.lastSample
  refine ⟨hss.1, hss.2, ?_⟩
  omega

/-! ### 32-bit signed arithmetic on the patterns of integers (R9, R89) -/

/-- The integer is the value of a 32-bit two's complement number (R9). -/
abbrev Fits32 (v : Int) : Prop := -2 ^ 31 ≤ v ∧ v < 2 ^ 31

theorem bits32_toInt (v : Int) (h : Fits32 v) : (bits32 v).toInt = v :=
  BitVec.toInt_ofInt_eq_self (by decide) h.1 h.2

theorem bits32_natCast (n : Nat) : bits32 n = BitVec.ofNat 32 n := BitVec.ofInt_natCast 32 n

theorem bits32_sub (v w : Int) : bits32 (v - w) = bits32 v - bits32 w := by
  rw [Int.sub_eq_add_neg, BitVec.sub_eq_add_neg]
  exact (BitVec.ofInt_add _ _).trans (congrArg _ BitVec.ofInt_neg)

theorem bits32_slt (v w : Int) (hv : Fits32 v) (hw : Fits32 w) :
    (bits32 v).slt (bits32 w) = decide (v < w) := by
  rw [BitVec.slt_eq_decide, bits32_toInt v hv, bits32_toInt w hw]

theorem bits32_slt_zero (v : Int) (hv : Fits32 v) : (bits32 v).slt 0 = decide (v < 0) :=
  bits32_slt v 0 hv (by omega)

theorem bits32_sle (n m : Nat) (hn : Fits32 n) (hm : Fits32 m) :
    (bits32 n).sle (bits32 m) = decide (n ≤ m) := by
  simp only [BitVec.sle_eq_decide, bits32_toInt _ hn, bits32_toInt _ hm, Int.ofNat_le]

theorem bits32_sshiftRight (n k : Nat) (h : Fits32 n) :
    (bits32 n).sshiftRight k = bits32 (n / 2 ^ k : Nat) := by
  have hfits : Fits32 (n / 2 ^ k : Nat) := by
    have hle : n / 2 ^ k ≤ n := Nat.div_le_self n _
    generalize n / 2 ^ k = m at hle ⊢
    omega
  apply BitVec.eq_of_toInt_eq
  rw [BitVec.toInt_sshiftRight, bits32_toInt _ h, bits32_toInt _ hfits, Int.shiftRight_eq_div_pow]
  push_cast
  rfl

/-- Narrowing a pattern reduces the same integer further, because `2 ^ k` divides `2 ^ 32`. -/
theorem bits32_setWidth (k : Nat) (v : Int) (hk : k ≤ 32) :
    (bits32 v).setWidth k = BitVec.ofInt k v := by
  apply BitVec.eq_of_toNat_eq
  have hdvd : ((2 ^ k : Nat) : Int) ∣ (2 ^ 32 : Nat) := Int.natCast_dvd_natCast.mpr (pow_dvd_pow 2 hk)
  have hword : 0 ≤ v % (2 ^ 32 : Nat) := Int.emod_nonneg v (by decide)
  have hnarrow := Int.toNat_emod hword (Int.natCast_nonneg (2 ^ k))
  rw [Int.emod_emod_of_dvd v hdvd, Int.toNat_natCast] at hnarrow
  rw [bits32, BitVec.toNat_setWidth, BitVec.toNat_ofInt, BitVec.toNat_ofInt, hnarrow]

theorem clamp32_bits32 (v lo hi : Int) (hv : Fits32 v) (hlo : Fits32 lo) (hhi : Fits32 hi) :
    clamp32 (bits32 v) (bits32 lo) (bits32 hi) = bits32 (clamp v lo hi) := by
  simp only [clamp32, clamp, bits32_slt v lo hv hlo, bits32_slt hi v hhi hv, decide_eq_true_eq]
  split
  · rfl
  · split <;> rfl

/-! ### DECODE_STEP in 32 bits (R89) -/

theorem shifted_product_eq_bits32_magnitudeOf (ss : Nat) (code : Code) (h : ss < 65536) :
    (((codeMagnitude code).setWidth 32 * 2 + 1) * BitVec.ofNat 32 ss).sshiftRight 3 =
      bits32 (magnitudeOf ss code) := by
  have hnum := numerator_le ss code
  have hproduct : ((codeMagnitude code).setWidth 32 * 2 + 1) * BitVec.ofNat 32 ss =
      bits32 ((code.toNat % 8 * 2 + 1) * ss : Nat) := by
    rw [bits32_natCast, BitVec.ofNat_mul, BitVec.ofNat_add, BitVec.ofNat_mul, ← codeMagnitude_toNat,
      BitVec.ofNat_toNat]
    rfl
  rw [hproduct, bits32_sshiftRight _ 3 (by omega)]
  rfl

theorem signed_product_eq_bits32_decodeMag (ss : Nat) (code : Code) (h : ss < 65536) :
    (if codeSign code then
        -(((codeMagnitude code).setWidth 32 * 2 + 1) * BitVec.ofNat 32 ss).sshiftRight 3
      else (((codeMagnitude code).setWidth 32 * 2 + 1) * BitVec.ofNat 32 ss).sshiftRight 3) =
      bits32 (decodeMag ss code) := by
  rw [shifted_product_eq_bits32_magnitudeOf ss code h, decodeMag_eq]
  split
  · exact BitVec.ofInt_neg.symm
  · rfl

theorem clamp32_sample_add (x : Sample) (mag : Int) (h : mag.natAbs ≤ 2 ^ 30) :
    clamp32 (x.signExtend 32 + bits32 mag) (-32768) 32767 =
      bits32 (clamp (int16 x + mag) (-32768) 32767) := by
  have hx := int16_range x
  have hsum : x.signExtend 32 + bits32 mag = bits32 (int16 x + mag) := (BitVec.ofInt_add _ _).symm
  rw [hsum]
  exact clamp32_bits32 (int16 x + mag) (-32768) 32767 (by omega) (by decide) (by decide)

theorem clamp32_index_add (idx : BitVec 7) (adjust : Int) (h : adjust.natAbs ≤ 2 ^ 30) :
    clamp32 (idx.setWidth 32 + bits32 adjust) 0 88 = bits32 (clamp ((idx.toNat : Int) + adjust) 0 88) := by
  have hidx := idx.isLt
  have hsum : idx.setWidth 32 + bits32 adjust = bits32 ((idx.toNat : Int) + adjust) := by
    rw [← BitVec.ofNat_toNat, ← bits32_natCast]
    exact (BitVec.ofInt_add _ _).symm
  rw [hsum]
  exact clamp32_bits32 ((idx.toNat : Int) + adjust) 0 88 (by omega) (by decide) (by decide)

/-- Neither sum of DECODE_STEP leaves 32 bits while the adjustment is small (R89). -/
theorem decodeStep32_eq (t : Tables) (c : Codec) (code : Code) (h : (stepAdjustAt t code).natAbs ≤ 2 ^ 30) :
    decodeStep32 t c code = (bits32 (decodeStep t c code).1, (decodeStep t c code).2) := by
  have hss := stepSizeAt_lt t c.stepIdx
  have hmag := decodeMag_natAbs_le (stepSizeAt t c.stepIdx) code
  have hidx : clamp32 (c.stepIdx.setWidth 32 + BitVec.ofInt 32 (stepAdjustAt t code)) 0 88 = _ :=
    clamp32_index_add c.stepIdx (stepAdjustAt t code) h
  simp only [decodeStep32, signed_product_eq_bits32_decodeMag _ code hss,
    clamp32_sample_add _ (decodeMag (stepSizeAt t c.stepIdx) code) (by omega), hidx,
    bits32_setWidth 7 _ (by decide), bits32_setWidth 16 _ (by decide)]
  rfl

/-! ### ENCODE_STEP in 32 bits (R89) -/

theorem abs_eq_bits32_natAbs (diff : Int) (h : Fits32 diff) :
    (if (bits32 diff).slt 0 then -bits32 diff else bits32 diff) = bits32 diff.natAbs := by
  rw [bits32_slt_zero diff h]
  by_cases hlt : diff < 0
  · have habs : (diff.natAbs : Int) = -diff := by omega
    rw [habs, if_pos (decide_eq_true hlt)]
    exact BitVec.ofInt_neg.symm
  · have habs : (diff.natAbs : Int) = diff := by omega
    rw [habs, if_neg (by simpa using hlt)]

/-- One greedy test (R84), compared and subtracted in 32 bits. -/
theorem test_eq_bits32_afterTest (q d : Nat) (hq : Fits32 q) (hd : Fits32 d) :
    (if (bits32 q).sle (bits32 d) then bits32 d - bits32 q else bits32 d) = bits32 (afterTest q d) := by
  rw [bits32_sle q d hq hd]
  unfold afterTest
  by_cases hle : q ≤ d
  · rw [if_pos hle, if_pos (by simpa using hle), Nat.cast_sub hle, bits32_sub]
  · rw [if_neg hle, if_neg (by simpa using hle)]

/-- On magnitudes and step sizes that fit, the 32-bit tests are those of R84. -/
theorem encodeCode32_eq (t : Tables) (c : Codec) (x : Sample) :
    encodeCode32 t c x = (encodeStep t c x).1 := by
  have hss := stepSizeAt_lt t c.stepIdx
  have hx : -32768 ≤ x.toInt ∧ x.toInt ≤ 32767 := int16_range x
  have hlast : -32768 ≤ c.lastSample.toInt ∧ c.lastSample.toInt ≤ 32767 := int16_range c.lastSample
  have hdiff : x.signExtend 32 - c.lastSample.signExtend 32 = bits32 (x.toInt - c.lastSample.toInt) :=
    (bits32_sub _ _).symm
  have hfits : Fits32 (x.toInt - c.lastSample.toInt) := by omega
  have hd : (x.toInt - c.lastSample.toInt).natAbs ≤ 65535 := by omega
  rw [encodeStep_code, encodeCode_eq_packBits]
  simp only [encodeCode32, hdiff, ← bits32_natCast]
  generalize stepSizeAt t c.stepIdx = ss at hss ⊢
  generalize x.toInt - c.lastSample.toInt = diff at hfits hd ⊢
  have hd1 := afterTest_le ss diff.natAbs
  have hd2 := afterTest_le (ss / 2) (afterTest ss diff.natAbs)
  have hhalf : (bits32 ss).sshiftRight 1 = bits32 (ss / 2 : Nat) := bits32_sshiftRight ss 1 (by omega)
  have hquarter : (bits32 ss).sshiftRight 2 = bits32 (ss / 4 : Nat) := bits32_sshiftRight ss 2 (by omega)
  rw [abs_eq_bits32_natAbs diff hfits, hhalf, hquarter, test_eq_bits32_afterTest ss _ (by omega) (by omega),
    test_eq_bits32_afterTest (ss / 2) _ (by omega) (by omega), bits32_sle _ _ (by omega) (by omega),
    bits32_sle _ _ (by omega) (by omega), bits32_sle _ _ (by omega) (by omega), bits32_slt_zero diff hfits]
  rfl

/-- Settles O14: both step functions, from any Codec State; the bound on the adjustments keeps the index sum
in 32 bits. -/
theorem stepsAgreeWith32BitArithmetic : Obligations.StepsAgreeWith32BitArithmetic := by
  unfold Obligations.StepsAgreeWith32BitArithmetic
  intro t c x code hadjust
  have hrange := stepAdjustAt_range t code (-1024) 1024 hadjust
  exact ⟨decodeStep32_eq t c code (by omega), encodeCode32_eq t c x⟩

end Sys2Proof.Machine

/-!
PROOFS. The buffer codec (42_buffer_codec.md): what ENC and DEC write (R95 to R107), their frames (R43, R120),
the boundary lengths (R108), and the round trips (R110, R111). What a completed command leaves is said field by
field by the lemmas about `encEffect` and `decEffect`; here the written bytes are read as numbers, and the codes
ENC packs are shown to be the codes DEC unpacks (`codesOf_bytesAt`), so that decoding them runs the encoder's own
chain of Codec States (`decodeList_encodeList_codec`).
-/

namespace Sys2Proof.Machine

open Sys2Proof.Safety

/-! ### Nibbles (R97, R106) -/

/-- The shift and the OR of R97 put the two codes side by side. -/
theorem packNibbles_eq_append (c0 c1 : Code) : packNibbles c0 c1 = c0 ++ c1 := by
  revert c0 c1
  decide

theorem packNibbles_toNat (c0 c1 : Code) : (packNibbles c0 c1).toNat = 16 * c0.toNat + c1.toNat := by
  rw [packNibbles_eq_append, toNat_append_add]
  omega

theorem highNibble_toNat (b : Byte) : (highNibble b).toNat = b.toNat / 16 := by
  have hb := b.isLt
  simp only [highNibble, BitVec.extractLsb'_toNat, Nat.shiftRight_eq_div_pow]
  omega

theorem lowNibble_toNat (b : Byte) : (lowNibble b).toNat = b.toNat % 16 := by
  simp only [lowNibble, BitVec.extractLsb'_toNat, Nat.shiftRight_zero, Nat.reducePow]

@[simp] theorem highNibble_packNibbles (c0 c1 : Code) : highNibble (packNibbles c0 c1) = c0 := by
  apply BitVec.eq_of_toNat_eq
  have hlow := c1.isLt
  rw [highNibble_toNat, packNibbles_toNat]
  omega

@[simp] theorem lowNibble_packNibbles (c0 c1 : Code) : lowNibble (packNibbles c0 c1) = c1 := by
  apply BitVec.eq_of_toNat_eq
  have hlow := c1.isLt
  rw [lowNibble_toNat, packNibbles_toNat]
  omega

@[simp] theorem packNibbles_high_low (b : Byte) : packNibbles (highNibble b) (lowNibble b) = b := by
  apply BitVec.eq_of_toNat_eq
  rw [packNibbles_toNat, highNibble_toNat, lowNibble_toNat]
  omega

/-- Settles O4: a payload byte is quotient and remainder by 16. -/
theorem nibblesPackAndUnpack : Obligations.NibblesPackAndUnpack := by
  unfold Obligations.NibblesPackAndUnpack
  intro c0 c1 b
  exact ⟨packNibbles_toNat c0 c1, highNibble_packNibbles c0 c1, lowNibble_packNibbles c0 c1,
    packNibbles_high_low b⟩

/-! ### The frame of a command (R43, R120) -/

/-- A command changes at most the Codec State, RESULT, STATUS and its destination bytes, and STATUS only where
it changes nothing else (R43, R120). -/
theorem exec_frame (i : Instr) (s t : State) (h : exec i s = .next t) :
    t = { s with codec := t.codec, result := t.result, fault := t.fault, mem := t.mem } ∧
    (t.fault ≠ s.fault → t = { s with fault := t.fault }) ∧
    ∀ a, ¬ CommandWrites i s a → memRead t.mem a = memRead s.mem a := by
  rcases exec_next i s t h with rfl | ⟨-, -, rfl⟩ | ⟨f, rfl⟩
  · exact ⟨rfl, fun _ => rfl, fun _ _ => rfl⟩
  · exact ⟨by cases i <;> rfl, fun hne => absurd (commandEffect_fault i s) hne,
      commandEffect_mem_other i s⟩
  · exact ⟨rfl, fun _ => rfl, fun _ _ => rfl⟩

/-- Settles O29: ENC's destination bytes are the `encOut` bytes from DST. -/
theorem encFrame : Obligations.EncFrame := by
  unfold Obligations.EncFrame
  intro header
  exact exec_frame (.enc header)

/-- Settles O30: DEC's destination bytes are the `decOut` bytes from DST. -/
theorem decFrame : Obligations.DecFrame := by
  unfold Obligations.DecFrame
  intro header
  exact exec_frame (.dec header)

/-! ### ENC (R95 to R102) -/

/-- RESULT holds the number of bytes ENC writes, which DSTCAP bounds (R33, R114). -/
theorem encEffect_result_toNat (header : Bool) (s : State) (h : encSize header s ≤ s.dstcap.toNat) :
    (encEffect header s).result.toNat = encSize header s :=
  Nat.mod_eq_of_lt (h.trans_lt s.dstcap.isLt)

/-- The header bytes ENC.H leaves, as numbers: last_sample big-endian, step_idx, 0 (R100, R101). -/
theorem encEffect_header_toNat (s : State) (hm : s.mem.wf)
    (ha : s.dst.toNat + encSize true s ≤ Config.addressSpace) :
    256 * (memRead (encEffect true s).mem s.dst.toNat).toNat +
        (memRead (encEffect true s).mem (s.dst.toNat + 1)).toNat = s.codec.lastSample.toNat ∧
      (memRead (encEffect true s).mem (s.dst.toNat + 2)).toNat = s.codec.stepIdx.toNat ∧
      memRead (encEffect true s).mem (s.dst.toNat + 3) = 0 := by
  have hheader := encEffect_header s hm ha
  refine ⟨?sample, ?index, hheader 3 (by omega)⟩
  case sample =>
    rw [← sampleHigh_sampleLow_toNat]
    exact congrArg₂ (fun high low : Byte => 256 * high.toNat + low.toNat)
      (hheader 0 (by omega)) (hheader 1 (by omega))
  case index =>
    refine (congrArg BitVec.toNat (hheader 2 (by omega))).trans ?_
    exact BitVec.toNat_setWidth_of_le (by omega)

/-- ENC.H writes its header at least (R98). -/
theorem encSize_true_pos (s : State) : 0 < encSize true s := Nat.add_pos_left (by decide) _

/-- The bytes a ready ENC writes lie inside the address space, if there are any (R49). -/
theorem encReady_fits (header : Bool) (s : State) (hready : EncReady header s)
    (hpos : 0 < encSize header s) : s.dst.toNat + encSize header s ≤ Config.addressSpace := by
  obtain ⟨-, ⟨-, hdst⟩, -⟩ := hready
  exact rangeOk_fits _ _ _ s.dst.toNat hdst ⟨le_refl _, by omega⟩

/-- Settles O16: the fields that `encEffect` leaves, its bytes read as numbers. -/
theorem encWritesThePackedCodes : Obligations.EncWritesThePackedCodes := by
  unfold Obligations.EncWritesThePackedCodes
  intro s header hs hm hready n e
  have hfits := encReady_fits header s hready
  have ⟨hsize, ⟨_, hdst⟩, hapart⟩ := hready
  refine ⟨(encEffect header s).mem, (encEffect header s).result, ?runs,
    encEffect_result_toNat header s hsize, ?header, fun k hk => ?payload,
    encEffect_mem_other header s, encEffect_wf header s hm (hdst.imp id And.left)⟩
  case runs =>
    rw [← encEffect_codec header s hapart]
    exact execEnc_ready header s hs hready
  case header =>
    rintro rfl
    exact encEffect_header_toNat s hm (hfits (encSize_true_pos s))
  case payload =>
    rw [encEffect_payload header s hapart hm (hfits (by simp only [encSize]; omega)) k hk]
    exact packNibbles_toNat _ _

/-- Settles O38: RESULT is the number of bytes written, the rest is `encEffect_congr`. -/
theorem encReadsOnlyConsumedSamples : Obligations.EncReadsOnlyConsumedSamples := by
  unfold Obligations.EncReadsOnlyConsumedSamples
  intro s header m hs hm hm' hready hagree
  obtain ⟨hcodec, hbytes⟩ := encEffect_congr header s m hready hm hm' hagree
  exact ⟨encEffect header s, encEffect header (setMem s m), execEnc_ready header s hs hready,
    execEnc_ready header (setMem s m) hs hready, hcodec.symm, rfl, fun a ha => (hbytes a ha).symm⟩

/-! ### DEC (R102 to R107) -/

/-- A sample as a number, its low byte at the lower address (R44). -/
theorem memRead16_toNat (m : Memory) (a : Nat) :
    (memRead16 m a).toNat = (memRead m a).toNat + 256 * (memRead m (a + 1)).toNat := by
  rw [memRead16, sampleOf, toNat_append_add]
  omega

/-- RESULT holds the number of samples DEC writes, which DSTCAP bounds (R33, R114). -/
theorem decEffect_result_toNat (header : Bool) (s : State) (h : decSize s ≤ s.dstcap.toNat) :
    (decEffect header s).result.toNat = 2 * s.len.toNat := by
  have hcap := s.dstcap.isLt
  have hlt : 2 * s.len.toNat < 2 ^ 32 := by simp only [decSize] at h; omega
  exact Nat.mod_eq_of_lt hlt

/-- Settles O17: the Codec State that `decHeader` gives and the fields that `decEffect` leaves, its samples
read as numbers. -/
theorem decWritesTheSamples : Obligations.DecWritesTheSamples := by
  unfold Obligations.DecWritesTheSamples
  intro s header hs hm hready
  have ⟨hsize, ⟨_, hdst⟩, hapart, hheader⟩ := hready
  refine ⟨decHeader header s.codec s.src.toNat s.mem, (decEffect header s).mem,
    (decEffect header s).result, ?without, ?loaded, ?runs, decEffect_result_toNat header s hsize,
    fun i hi => ?sample, decEffect_mem_other header s,
    decEffect_wf header s hm (hdst.imp id And.left)⟩
  case without => rintro rfl; rfl
  case loaded =>
    rintro rfl
    exact ⟨codecOfHeader_lastSample_toNat _ _ _, codecOfHeader_stepIdx_toNat _ _ _ (hheader rfl)⟩
  case runs =>
    rw [← decEffect_codec header s hapart]
    exact execDec_ready header s hs hready
  case sample =>
    have hfits := rangeOk_fits _ _ _ s.dst.toNat hdst ⟨le_refl _, by simp only [decSize]; omega⟩
    rw [← decEffect_samples header s hapart hm hfits i hi, memRead16_toNat]

/-! ### Boundary lengths (R108) -/

/-- A command of a running block whose checks answer a fault raises it and does nothing else (R118, R120). -/
theorem exec_faulting (i : Instr) (s : State) (f : FaultCode) (hs : halted s = false)
    (hf : commandFault i s = f) (hne : f ≠ .clear) : exec i s = .next { s with fault := f } := by
  rw [exec_eq_checked, hf, checked_fault _ _ _ hne, unlessHalted_running _ _ hs]
  rfl

/-- ENC answers SIZE when its bytes exceed DSTCAP (R114, R119). -/
theorem encFault_eq_size (header : Bool) (s : State) (h : s.dstcap.toNat < encSize header s) :
    encFault header s = .size := if_pos h

/-- DEC answers SIZE when its bytes exceed DSTCAP (R114, R119). -/
theorem decFault_eq_size (header : Bool) (s : State) (h : s.dstcap.toNat < decSize s) :
    decFault header s = .size := by
  rcases decFault_cases header s with ⟨-, hf⟩ | ⟨hsize, -⟩ | ⟨hsize, -⟩ | ⟨hsize, -⟩ | ⟨⟨hsize, -⟩, -⟩
  · exact hf
  all_goals omega

/-- ENC answers BUS when its bytes fit and a range is not admitted (R115, R119). -/
theorem encFault_eq_bus (header : Bool) (s : State) (hsize : encSize header s ≤ s.dstcap.toNat)
    (h : ¬ EncAdmitted header s) : encFault header s = .bus := by
  rcases encFault_cases header s with ⟨hlt, -⟩ | ⟨-, -, hf⟩ | ⟨-, hadm, -⟩ | ⟨⟨-, hadm, -⟩, -⟩
  · omega
  · exact hf
  · exact absurd hadm h
  · exact absurd hadm h

/-- ENC answers OVERLAP when its bytes fit, its ranges are admitted and share a byte (R117, R119). -/
theorem encFault_eq_overlap (header : Bool) (s : State) (hsize : encSize header s ≤ s.dstcap.toNat)
    (hadm : EncAdmitted header s) (h : ¬ EncApart header s) : encFault header s = .overlap := by
  rcases encFault_cases header s with ⟨hlt, -⟩ | ⟨-, hnot, -⟩ | ⟨-, -, -, hf⟩ | ⟨⟨-, -, hapart⟩, -⟩
  · omega
  · exact absurd hadm hnot
  · exact hf
  · exact absurd hapart h

/-- An ENC of no pair needs room for its header only (R108). -/
theorem encReady_of_no_pairs (header : Bool) (s : State) (h : s.len.toNat / 2 = 0)
    (hsize : headerSize header ≤ s.dstcap.toNat)
    (hdst : RangeOk s.params.writable s.dst.toNat (headerSize header)) : EncReady header s := by
  unfold EncReady EncAdmitted EncApart encSize
  rw [h]
  exact ⟨hsize, ⟨.inl rfl, hdst⟩, .inl rfl⟩

/-- An ENC of no pair writes its header only (R108). -/
theorem encEffect_of_no_pairs (header : Bool) (s : State) (h : s.len.toNat / 2 = 0) :
    encEffect header s =
      { s with
        result := BitVec.ofNat 32 (headerSize header)
        mem := encHeader header s.codec s.dst.toNat s.mem } := by
  simp only [encEffect, encPairs_bufferArgs, encOut_bufferArgs, encSize, h]
  rfl

/-- A DEC of no payload byte passes SIZE, and BUS and OVERLAP with a readable header (R108). -/
theorem decChecks_of_no_payload (header : Bool) (s : State) (h : s.len = 0)
    (hsrc : RangeOk s.params.readable s.src.toNat (headerSize header)) :
    decSize s ≤ s.dstcap.toNat ∧ DecAdmitted header s ∧ DecApart header s := by
  unfold DecAdmitted DecApart decSize
  rw [h]
  exact ⟨Nat.zero_le _, ⟨hsrc, .inl rfl⟩, .inr (.inl rfl)⟩

/-- A DEC of no payload byte loads its header only (R104, R108). -/
theorem decEffect_of_no_payload (header : Bool) (s : State) (h : s.len = 0) :
    decEffect header s =
      { s with codec := decHeader header s.codec s.src.toNat s.mem, result := 0 } := by
  have hn : s.len.toNat = 0 := congrArg BitVec.toNat h
  simp only [decEffect, bufferArgs_len, hn]
  rfl

/-- A source of 2^30 pairs that does not wrap is the whole address space, so it shares a byte with every
destination (R108). -/
theorem not_encApart_of_many_pairs (header : Bool) (s : State) (hn : 2 ^ 30 ≤ s.len.toNat / 2)
    (hadm : EncAdmitted header s) : ¬ EncApart header s := by
  obtain ⟨hsrc, -⟩ := hadm
  have hdst := s.dst.isLt
  simp only [EncApart, RangesApart, RangeOk, encSize] at hsrc ⊢
  omega

/-- Settles O40: each clause by the check that fails, or by what is left of the effect without a loop. -/
theorem boundaryLengths : Obligations.BoundaryLengths := by
  unfold Obligations.BoundaryLengths
  intro s hs hm
  refine ⟨fun hlen => ?enc, fun hlen hcap hdst => ?encH, fun hlen => ?dec, fun hlen hsrc hidx => ?decH,
    fun hlen hsrc hidx => ?hdrstep, fun header hlen hcap => ?size,
    fun header hn hcap => ⟨fun hwrap => ?bus, fun hadm => ?overlap⟩, fun header hlen => ?decSize⟩
  case enc =>
    have hn : s.len.toNat / 2 = 0 := by omega
    exact (execEnc_ready false s hs (encReady_of_no_pairs false s hn (Nat.zero_le _) (.inl rfl))).trans
      (congrArg Host.Outcome.next (encEffect_of_no_pairs false s hn))
  case encH =>
    have hn : s.len.toNat / 2 = 0 := by omega
    have hready := encReady_of_no_pairs true s hn hcap hdst
    have hsize : encSize true s = 4 := congrArg (4 + ·) hn
    have hfits := encReady_fits true s hready (by omega)
    have heff := encEffect_of_no_pairs true s hn
    obtain ⟨hsample, hindex, hzero⟩ := encEffect_header_toNat s hm hfits
    refine ⟨(encEffect true s).mem, (execEnc_ready true s hs hready).trans ?_, hsample, hindex, hzero,
      encEffect_wf true s hm (.inr hfits), fun a ha => encEffect_mem_other true s a (by rwa [hsize])⟩
    rw [heff]
    rfl
  case dec =>
    obtain ⟨hsize, hadm, hapart⟩ := decChecks_of_no_payload false s hlen (.inl rfl)
    exact (execDec_ready false s hs ⟨hsize, hadm, hapart, nofun⟩).trans
      (congrArg Host.Outcome.next (decEffect_of_no_payload false s hlen))
  case decH =>
    obtain ⟨hsize, hadm, hapart⟩ := decChecks_of_no_payload true s hlen hsrc
    exact ⟨decHeader true s.codec s.src.toNat s.mem,
      (execDec_ready true s hs ⟨hsize, hadm, hapart, fun _ => hidx⟩).trans
        (congrArg Host.Outcome.next (decEffect_of_no_payload true s hlen)),
      codecOfHeader_lastSample_toNat _ _ _, codecOfHeader_stepIdx_toNat _ _ _ hidx⟩
  case hdrstep =>
    obtain ⟨hsize, hadm, hapart⟩ := decChecks_of_no_payload true s hlen hsrc
    exact execDec_hdrstep true s hs hsize hadm hapart fun hok => by have := hok rfl; omega
  case size =>
    exact exec_faulting (.enc header) s .size hs
      (encFault_eq_size header s (by simp only [encSize]; omega)) nofun
  case bus =>
    refine exec_faulting (.enc header) s .bus hs (encFault_eq_bus header s hcap ?_) nofun
    rintro ⟨hsrc, -⟩
    simp only [RangeOk] at hsrc
    omega
  case overlap =>
    exact exec_faulting (.enc header) s .overlap hs
      (encFault_eq_overlap header s hcap hadm (not_encApart_of_many_pairs header s hn hadm)) nofun
  case decSize =>
    have hcap := s.dstcap.isLt
    exact exec_faulting (.dec header) s .size hs
      (decFault_eq_size header s (by simp only [decSize]; omega)) nofun

/-! ### Round trips (R110, R111) -/

/-- Payload bytes that pack a list of codes pairwise give the list back (R97, R106). -/
theorem codesOf_bytesAt (m : Memory) (p n : Nat) (ks : List Code) (hlen : ks.length = 2 * n)
    (h : ∀ k < n, memRead m (p + k) = packNibbles (ks.getD (2 * k) 0) (ks.getD (2 * k + 1) 0)) :
    codesOf (bytesAt m p n) = ks := by
  induction n generalizing p ks with
  | zero => exact (List.eq_nil_of_length_eq_zero hlen).symm
  | succ n ih =>
    obtain _ | ⟨k0, _ | ⟨k1, ks⟩⟩ := ks
    · simp at hlen
    · simp only [List.length_cons, List.length_nil] at hlen; omega
    · have h0 : memRead m p = packNibbles k0 k1 := h 0 (Nat.succ_pos n)
      have htail : codesOf (bytesAt m (p + 1) n) = ks := by
        refine ih (p + 1) ks (by simp only [List.length_cons] at hlen; omega) fun k hk => ?_
        rw [Nat.add_assoc, Nat.add_comm 1 k]
        exact h (k + 1) (by omega)
      rw [bytesAt_succ, codesOf_cons, h0, highNibble_packNibbles, lowNibble_packNibbles, htail]

/-- Decoding the encoder's codes runs through the encoder's Codec States (R92, R110). -/
theorem decodeList_encodeList_codec (t : Tables) (c : Codec) (xs : List Sample) :
    (decodeList t c (encodeList t c xs).1).2 = (encodeList t c xs).2 := by
  induction xs generalizing c with
  | nil => rfl
  | cons x xs ih => exact ih (encodeStep t c x).2

/-- Decoded sample `i` is the LAST_SAMPLE that the encoder left after sample `i` (R92, R110). -/
theorem decodeList_encodeList_getD (t : Tables) (c : Codec) (xs : List Sample) (i : Nat)
    (hi : i < xs.length) :
    (decodeList t c (encodeList t c xs).1).1.getD i 0 =
      (encodeList t c (xs.take (i + 1))).2.lastSample := by
  induction xs generalizing c i with
  | nil => exact absurd hi (Nat.not_lt_zero i)
  | cons x xs ih =>
    cases i with
    | zero => rfl
    | succ i => exact ih (encodeStep t c x).2 i (Nat.lt_of_succ_lt_succ hi)

/-- The payload that ENC leaves unpacks to the codes of its samples (R97, R106). -/
theorem codesOf_encEffect (header : Bool) (s : State) (hm : s.mem.wf) (hready : EncReady header s) :
    codesOf (bytesAt (encEffect header s).mem (s.dst.toNat + headerSize header) (s.len.toNat / 2)) =
      (encodeList s.params.tables s.codec
        (samplesAt s.mem s.src.toNat (2 * (s.len.toNat / 2)))).1 := by
  have ⟨_, _, hapart⟩ := hready
  refine codesOf_bytesAt _ _ _ _ (by rw [encodeList_length, samplesAt_length]) fun k hk => ?_
  exact encEffect_payload header s hapart hm
    (encReady_fits header s hready (by simp only [encSize]; omega)) k hk

/-- The header that ENC.H leaves gives back the Codec State from before it; without a header the decoder starts
there by itself (R100, R104, R111). -/
theorem decHeader_encEffect (header : Bool) (s : State) (c : Codec) (hm : s.mem.wf)
    (hready : EncReady header s) (hc : header = false → c = s.codec) :
    decHeader header c s.dst.toNat (encEffect header s).mem = s.codec := by
  cases header with
  | false => exact hc rfl
  | true =>
    have hheader := encEffect_header s hm (encReady_fits true s hready (encSize_true_pos s))
    exact codecOfHeader_headerBytes s.codec _ _ _ (hheader 0 (by omega)) (hheader 1 (by omega))
      (hheader 2 (by omega))

/-- The state after ENC, with Codec State `c` and the window set to decode the bytes ENC wrote to `dst2`
(R110, R111). -/
def decodeBack (header : Bool) (s : State) (c : Codec) (dst2 : Word) : State :=
  { encEffect header s with
    codec := c
    src := s.dst
    dst := dst2
    len := BitVec.ofNat 32 (s.len.toNat / 2)
    dstcap := BitVec.ofNat 32 (4 * (s.len.toNat / 2)) }

@[simp] theorem decodeBack_src (header : Bool) (s : State) (c : Codec) (dst2 : Word) :
    (decodeBack header s c dst2).src = s.dst := rfl

@[simp] theorem decodeBack_dst (header : Bool) (s : State) (c : Codec) (dst2 : Word) :
    (decodeBack header s c dst2).dst = dst2 := rfl

@[simp] theorem decodeBack_codec (header : Bool) (s : State) (c : Codec) (dst2 : Word) :
    (decodeBack header s c dst2).codec = c := rfl

@[simp] theorem decodeBack_mem (header : Bool) (s : State) (c : Codec) (dst2 : Word) :
    (decodeBack header s c dst2).mem = (encEffect header s).mem := rfl

@[simp] theorem decodeBack_params (header : Bool) (s : State) (c : Codec) (dst2 : Word) :
    (decodeBack header s c dst2).params = s.params := rfl

@[simp] theorem decodeBack_len_toNat (header : Bool) (s : State) (c : Codec) (dst2 : Word) :
    (decodeBack header s c dst2).len.toNat = s.len.toNat / 2 :=
  Nat.mod_eq_of_lt ((Nat.div_le_self _ _).trans_lt s.len.isLt)

theorem decodeBack_dstcap_toNat (header : Bool) (s : State) (c : Codec) (dst2 : Word)
    (h : 4 * (s.len.toNat / 2) < 2 ^ 32) :
    (decodeBack header s c dst2).dstcap.toNat = 4 * (s.len.toNat / 2) :=
  Nat.mod_eq_of_lt h

/-- DEC of what ENC wrote is ready: its source is what ENC wrote, and the header holds ENC's own index
(R111). -/
theorem decReady_decodeBack (header : Bool) (s : State) (c : Codec) (dst2 : Word) (hm : s.mem.wf)
    (hidx : s.codec.stepIdx.toNat ≤ 88) (hready : EncReady header s)
    (hlen : 4 * (s.len.toNat / 2) < 2 ^ 32)
    (hsrc : RangeOk s.params.readable s.dst.toNat (encSize header s))
    (hdst : RangeOk s.params.writable dst2.toNat (4 * (s.len.toNat / 2)))
    (hapart : RangesApart s.dst.toNat (encSize header s) dst2.toNat (4 * (s.len.toNat / 2))) :
    DecReady header (decodeBack header s c dst2) := by
  unfold DecReady DecAdmitted DecApart decSize
  rw [decodeBack_len_toNat, decodeBack_dstcap_toNat header s c dst2 hlen]
  refine ⟨le_refl _, ⟨hsrc, hdst⟩, hapart, ?_⟩
  rintro rfl
  obtain ⟨-, hindex, -⟩ := encEffect_header_toNat s hm
    (encReady_fits true s hready (encSize_true_pos s))
  exact hindex.trans_le hidx

/-- DEC of what ENC wrote decodes, from the Codec State before ENC, the codes of ENC's samples (R110). -/
theorem decodeList_decodeBack (header : Bool) (s : State) (c : Codec) (dst2 : Word) (hm : s.mem.wf)
    (hready : EncReady header s) (hc : header = false → c = s.codec) :
    let u := decodeBack header s c dst2
    decodeList u.params.tables (decHeader header u.codec u.src.toNat u.mem)
        (codesOf (bytesAt u.mem (u.src.toNat + headerSize header) u.len.toNat)) =
      decodeList s.params.tables s.codec
        (encodeList s.params.tables s.codec (samplesAt s.mem s.src.toNat (2 * (s.len.toNat / 2)))).1 := by
  simp only [decodeBack_params, decodeBack_codec, decodeBack_src, decodeBack_mem, decodeBack_len_toNat,
    decHeader_encEffect header s c hm hready hc, codesOf_encEffect header s hm hready]

/-- Settles O41: both commands are ready, and DEC decodes the encoder's own codes from its own start. -/
theorem decodingReproducesTheEncoder : Obligations.DecodingReproducesTheEncoder := by
  unfold Obligations.DecodingReproducesTheEncoder
  intro s header c dst2 n xs hs hm hidx hready hc hlen hsrc hdst hapart
  have ⟨_, ⟨_, hencdst⟩, hencapart⟩ := hready
  have hdecready := decReady_decodeBack header s c dst2 hm hidx hready hlen hsrc hdst hapart
  have ⟨hdecsize, _, hdecapart, _⟩ := hdecready
  have hdecode := decodeList_decodeBack header s c dst2 hm hready hc
  have hn := decodeBack_len_toNat header s c dst2
  refine ⟨encEffect header s, decEffect header (decodeBack header s c dst2),
    execEnc_ready header s hs hready, execDec_ready header _ hs hdecready, ?codec, ?result,
    fun i hi => ?sample⟩
  case codec =>
    rw [decEffect_codec header _ hdecapart, hdecode, decodeList_encodeList_codec,
      encEffect_codec header s hencapart]
  case result => rw [decEffect_result_toNat header _ hdecsize, hn]
  case sample =>
    have hmem := encEffect_wf header s hm (hencdst.imp id And.left)
    have hfits := rangeOk_fits _ _ _ dst2.toNat hdst ⟨le_refl _, by omega⟩
    have hread := decEffect_samples header (decodeBack header s c dst2) hdecapart hmem
      (by rw [decSize, hn]; exact hfits) i (by rw [hn]; exact hi)
    rw [hdecode, decodeList_encodeList_getD _ _ _ _ (by rw [samplesAt_length]; exact hi)] at hread
    exact hread

end Sys2Proof.Machine

/-!
PROOFS. Exceptions (60_exceptions.md): the first check that fails is the fault reported (R114 to R119), a fault
changes STATUS alone (R120), and a halted block discards every command until hardware reset (R121, R123). What
ENC, DEC and a CMD write can do is read off `decFault_cases`, `exec_faulting` and `cmdWrite_outcome`.
-/

namespace Sys2Proof.Machine

open Sys2Proof.Safety

/-! ### The first check that fails (R119) -/

/-- DEC answers BUS when its bytes fit and a range is not admitted (R115, R119). -/
theorem decFault_eq_bus (header : Bool) (s : State) (hsize : decSize s ≤ s.dstcap.toNat)
    (h : ¬ DecAdmitted header s) : decFault header s = .bus := by
  rcases decFault_cases header s with ⟨hlt, -⟩ | ⟨-, -, hf⟩ | ⟨-, hadm, -⟩ | ⟨-, hadm, -⟩ |
    ⟨⟨-, hadm, -⟩, -⟩
  · omega
  · exact hf
  all_goals exact absurd hadm h

/-- DEC answers OVERLAP when its bytes fit, its ranges are admitted and share a byte (R117, R119). -/
theorem decFault_eq_overlap (header : Bool) (s : State) (hsize : decSize s ≤ s.dstcap.toNat)
    (hadm : DecAdmitted header s) (h : ¬ DecApart header s) : decFault header s = .overlap := by
  rcases decFault_cases header s with ⟨hlt, -⟩ | ⟨-, hnot, -⟩ | ⟨-, -, -, hf⟩ | ⟨-, -, hapart, -⟩ |
    ⟨⟨-, -, hapart, -⟩, -⟩
  · omega
  · exact absurd hadm hnot
  · exact hf
  all_goals exact absurd hapart h

/-- Settles O18: each clause is the one answer of ENC's check phase, and `exec_faulting` raises it. -/
theorem encReportsTheFirstFailedCheck : Obligations.EncReportsTheFirstFailedCheck := by
  unfold Obligations.EncReportsTheFirstFailedCheck
  intro s header hs
  refine ⟨fun hlt => ?size, fun hsize hnot => ?bus, fun hsize hadm hnot => ?overlap⟩
  case size => exact exec_faulting (.enc header) s .size hs (encFault_eq_size header s hlt) nofun
  case bus => exact exec_faulting (.enc header) s .bus hs (encFault_eq_bus header s hsize hnot) nofun
  case overlap =>
    exact exec_faulting (.enc header) s .overlap hs (encFault_eq_overlap header s hsize hadm hnot) nofun

/-- Settles O19: as for ENC, and a header that holds an index above 88 fails the last check. -/
theorem decReportsTheFirstFailedCheck : Obligations.DecReportsTheFirstFailedCheck := by
  unfold Obligations.DecReportsTheFirstFailedCheck
  intro s header hs
  refine ⟨fun hlt => ?size, fun hsize hnot => ?bus, fun hsize hadm hnot => ?overlap,
    fun hsize hadm hapart hheader hidx => ?hdrstep⟩
  case size => exact exec_faulting (.dec header) s .size hs (decFault_eq_size header s hlt) nofun
  case bus => exact exec_faulting (.dec header) s .bus hs (decFault_eq_bus header s hsize hnot) nofun
  case overlap =>
    exact exec_faulting (.dec header) s .overlap hs (decFault_eq_overlap header s hsize hadm hnot) nofun
  case hdrstep =>
    exact execDec_hdrstep header s hs hsize hadm hapart fun hok => absurd (hok hheader) (by omega)

/-! ### What a fault changes (R120) -/

/-- Settles O20: a CMD write that leaves a fault in a running block did not complete its command, because a
completed command keeps STATUS. -/
theorem faultChangesOnlyStatus : Obligations.FaultChangesOnlyStatus := by
  unfold Obligations.FaultChangesOnlyStatus
  intro s t w _ h hfault
  rcases cmdWrite_outcome s t w h with rfl | ⟨i, -, hclear, -, rfl⟩ | ⟨f, rfl⟩
  · rfl
  · exact absurd ((commandEffect_fault i s).trans hclear) hfault
  · rfl

/-! ### The halted block (R121) -/

/-- A halted block discards every CMD write, of a command and of an illegal word alike (R121). -/
theorem cmdWrite_halted (s : State) (w : Word) (h : halted s = true) : cmdWrite s w = .next s := by
  cases hd : decode w with
  | command i => exact (cmdWrite_command s w i hd).trans (exec_halted i s h)
  | illegal why => exact (cmdWrite_illegal s w why hd).trans (unlessHalted_halted s _ h)

@[simp] theorem writeWindow_fault (s : State) (w : Word) (r : WReg) :
    (writeWindow s w r).fault = s.fault := by
  cases r <;> rfl

/-- Each of the four argument registers reads back what was written to it (R37). -/
theorem readWindow_writeWindow (s : State) (w : Word) (r : WReg)
    (h : r ∈ [WReg.src, .dst, .len, .dstcap]) : readWindow (writeWindow s w r) r = w := by
  simp only [List.mem_cons, List.not_mem_nil, or_false] at h
  rcases h with rfl | rfl | rfl | rfl <;> rfl

/-- A step whose next action is hardware reset resets the block (R58, R131). -/
theorem step_hardReset (s : State) (rest : List HostAction) (h : s.pending = .hardReset :: rest) :
    step s = .next (hardReset (setPending s rest)) := by
  unfold step nextAction
  rw [h]
  rfl

/-- A step of a halted block keeps STATUS, unless it is hardware reset (R121). -/
theorem step_halted_fault (s t : State) (hs : halted s = true) (h : step s = .next t) :
    t.fault = s.fault ∨ ∃ rest, s.pending = .hardReset :: rest ∧ t.fault = .clear := by
  rcases step_next s t h with ⟨-, rfl⟩ | ⟨w, rest, -, hcmd⟩ | ⟨r, w, rest, -, -, rfl⟩ |
    ⟨r, rest, -, rfl⟩ | ⟨a, b, rest, -, rfl⟩ | ⟨a, rest, -, rfl⟩ | ⟨rest, hp, rfl⟩
  · exact .inl rfl
  · rw [cmdWrite_halted (setPending s rest) w hs] at hcmd
    cases hcmd
    exact .inl rfl
  · exact .inl (writeWindow_fault _ w r)
  · exact .inl rfl
  · exact .inl rfl
  · exact .inl rfl
  · exact .inr ⟨rest, hp, rfl⟩

/-- Settles O21: the discard is `cmdWrite_halted`, every other clause the step lemma of its host action. -/
theorem haltedBlockWaitsForHardwareReset : Obligations.HaltedBlockWaitsForHardwareReset := by
  unfold Obligations.HaltedBlockWaitsForHardwareReset
  intro s hs
  refine ⟨fun w => cmdWrite_halted s w hs, fun r w hr => ?write, fun r rest hp => ?read,
    fun t => step_halted_fault s t hs, fun rest hp => ?reset⟩
  case write =>
    have hcmd : r ≠ .cmd := by rintro rfl; simp at hr
    exact ⟨_, windowWrite_argument s w r hcmd, readWindow_writeWindow s w r hr⟩
  case read => exact step_windowRead s r rest hp
  case reset => exact ⟨_, step_hardReset s rest hp, rfl, rfl⟩

/-! ### A sequence of command words (R123) -/

/-- A CMD write always answers a next state (R118, R142). -/
theorem cmdWrite_answers (s : State) (w : Word) : ∃ t, cmdWrite s w = .next t := by
  cases hd : decode w with
  | command i =>
    rw [cmdWrite_command s w i hd, exec_eq_checked]
    exact unlessHalted_answers s _
  | illegal why =>
    rw [cmdWrite_illegal s w why hd]
    exact unlessHalted_answers s _

/-- A sequence of command words goes on from the state its first word leaves. -/
theorem runWords_cons (s t : State) (w : Word) (ws : List Word) (h : cmdWrite s w = .next t) :
    runWords s (w :: ws) = runWords t ws := by
  simp only [runWords, h]

/-- On a halted block a sequence of command words changes nothing (R121). -/
theorem runWords_halted (s : State) (ws : List Word) (h : halted s = true) : runWords s ws = s := by
  induction ws with
  | nil => rfl
  | cons w ws ih => exact (runWords_cons s s w ws (cmdWrite_halted s w h)).trans ih

/-- Settles O22, by induction on the words: the first word either halts the block, and the rest is discarded,
or leaves it running, and the first fault comes later. -/
theorem statusNamesTheFirstFaultingCommand : Obligations.StatusNamesTheFirstFaultingCommand := by
  unfold Obligations.StatusNamesTheFirstFaultingCommand
  intro s ws hs hhalted
  induction ws generalizing s with
  | nil => exact absurd (hs.symm.trans hhalted) nofun
  | cons w ws ih =>
    obtain ⟨t, ht⟩ := cmdWrite_answers s w
    rw [runWords_cons s t w ws ht] at hhalted ⊢
    cases htHalted : halted t with
    | true =>
      have hfault : t.fault ≠ .clear := (halted_iff t).mp htHalted
      have hstatus : t = { s with fault := t.fault } := faultChangesOnlyStatus s t w hs ht hfault
      exact ⟨[], w, ws, t.fault, rfl, hs, hfault, ht.trans (congrArg _ hstatus),
        (runWords_halted t ws htHalted).trans hstatus⟩
    | false =>
      obtain ⟨before, w', after, f, rfl, hbefore, hne, hfaults, hrest⟩ := ih t htHalted hhalted
      rw [← runWords_cons s t w before ht] at hbefore hfaults hrest
      exact ⟨w :: before, w', after, f, rfl, hbefore, hne, hfaults, hrest⟩

end Sys2Proof.Machine

/-!
PROOFS. Reset and hazards (70_reset_and_hazards.md): what hardware reset sets and leaves (R131), and that every
CMD write ends and a step stops only on an access outside the model (R142, R36). Each host action is answered by
its own step lemma; a window access reaches a register or is refused.
-/

namespace Sys2Proof.Machine

open Sys2Proof.Safety

/-! ### The invariant at reset (R131) -/

/-- Settles O34: index 0 is in range, and a memory with no byte listed is canonical. -/
theorem invariantHoldsAtReset : Obligations.InvariantHoldsAtReset := by
  unfold Obligations.InvariantHoldsAtReset
  have hidx : StepIndexOk State.reset := Nat.zero_le 88
  have hmem : State.reset.mem.wf := ⟨List.Pairwise.nil, nofun⟩
  exact ⟨hidx, hmem⟩

/-! ### Hardware reset (R131) -/

/-- A step whose next action writes a legal word to CMD runs the command (R28, R61). -/
theorem step_command (s : State) (w : Word) (i : Instr) (rest : List HostAction) (hd : decode w = .command i)
    (hp : s.pending = .windowWrite s.params.regBase .word w :: rest) :
    step s = exec i (setPending s rest) :=
  (step_cmdWrite s w rest hp).trans (cmdWrite_command _ w i hd)

/-- Settles O7: the step answers `hardReset`, whose fields are the reset values, and a CMD write that follows is
`step_command` from there. -/
theorem hardwareResetAction : Obligations.HardwareResetAction := by
  unfold Obligations.HardwareResetAction
  intro s rest hp
  refine ⟨hardReset (setPending s rest), step_hardReset s rest hp, rfl, rfl, rfl, rfl, rfl, rfl, rfl,
    ?status, ?state, rfl, rfl, rfl, rfl, rfl, rfl, ?command⟩
  case status => exact (by decide : statusWord .clear = 0)
  case state => exact (by decide : stateView Codec.reset = 0)
  case command =>
    intro w i later hd hnext
    exact step_command (hardReset (setPending s rest)) w i later hd hnext

/-! ### Every step ends (R142) -/

/-- The accesses that reach no register are those that are no word access or at no register's address (R36). -/
theorem windowRegAt_eq_none_iff (p : Params) (addr : Nat) (size : AccessSize) :
    windowRegAt p addr size = none ↔ size ≠ .word ∨ ∀ r, addr ≠ p.regBase + windowOffset r := by
  refine ⟨fun hnone => ?_, windowRegAt_none p addr size⟩
  by_contra! hreg
  obtain ⟨rfl, r, rfl⟩ := hreg
  rw [windowRegAt_word] at hnone
  cases hnone

/-- A window write to a register always answers a next state (R28, R36, R37). -/
theorem windowWrite_answers (s : State) (w : Word) (r : WReg) : ∃ t, windowWrite s w r = .next t := by
  by_cases hr : r = .cmd
  · subst hr
    exact cmdWrite_answers s w
  · exact ⟨_, windowWrite_argument s w r hr⟩

/-- With no host action left a step changes nothing (R130). -/
theorem step_idle (s : State) (h : s.pending = []) : step s = .next s := by
  unfold step nextAction
  rw [h]

/-- Settles O39: a CMD write is `cmdWrite_answers`; a step is answered action by action, and a window access by
whether it reaches a register. -/
theorem everyCommandTerminates : Obligations.EveryCommandTerminates := by
  unfold Obligations.EveryCommandTerminates
  refine ⟨cmdWrite_answers, fun s => ?_⟩
  cases hp : s.pending with
  | nil => exact .inl ⟨s, step_idle s hp⟩
  | cons a rest =>
    cases a with
    | windowWrite addr size v =>
      cases hr : windowRegAt s.params addr size with
      | none =>
        exact .inr ⟨step_refused s addr size v rest hr (.inl hp), addr, size, rest,
          (windowRegAt_eq_none_iff s.params addr size).mp hr, .inl ⟨v, rfl⟩⟩
      | some r =>
        obtain ⟨rfl, rfl⟩ := windowRegAt_some s.params addr size r hr
        rw [step_windowWrite s r v rest hp]
        exact .inl (windowWrite_answers (setPending s rest) v r)
    | windowRead addr size =>
      cases hr : windowRegAt s.params addr size with
      | none =>
        exact .inr ⟨step_refused s addr size 0 rest hr (.inr hp), addr, size, rest,
          (windowRegAt_eq_none_iff s.params addr size).mp hr, .inr rfl⟩
      | some r =>
        obtain ⟨rfl, rfl⟩ := windowRegAt_some s.params addr size r hr
        exact .inl ⟨_, step_windowRead s r rest hp⟩
    | memWrite addr b => exact .inl ⟨_, step_memWrite s addr b rest hp⟩
    | memRead addr => exact .inl ⟨_, step_memRead s addr rest hp⟩
    | hardReset => exact .inl ⟨_, step_hardReset s rest hp⟩

end Sys2Proof.Machine
